-- ==== Sys2Proof/Word.lean ====
section
/-! DEFINITION. The word types of the machine (00_scope.md R8): all values are unsigned. -/

namespace Sys2Proof

/-- A register or memory byte, 8 bits. -/
abbrev Byte := BitVec 8

/-- An opcode, the program counter, the address register or a stack entry, 16 bits. -/
abbrev Word := BitVec 16

/-- A 4-bit field: a register number, a row count, a key number, a hexadecimal digit. -/
abbrev Nibble := BitVec 4

/-- The 12-bit address immediate `nnn`. -/
abbrev Addr := BitVec 12

end Sys2Proof
end

