-- ==== Sys2Proof/Config.lean ====
section
/-! DEFINITION. The parameters of the hardware (00_scope.md R7) and the free values it leaves open. -/

/-- Whose turn it is (00_scope.md R3): the interpreter's, the timer controller's, or one of the host's
events (00_scope.md R4). -/
inductive Sys2Proof.Turn where
  | instr
  | tick
  | keyEdge (k : Nibble)
  | reset
  | load (rom : List Byte)
  deriving DecidableEq, Repr

namespace Sys2Proof.Config

/-- `MEM_SIZE`: addresses 0x000 to 0xFFF. -/
abbrev memSize : Nat := 4096

/-- `PROGRAM_BASE`: where a ROM is loaded and where execution starts. -/
abbrev programBase : Nat := 0x200

/-- `PC_MIN`: the lowest address an instruction may be fetched from (R172). -/
abbrev pcMin : Nat := 0x200

/-- `PC_MAX`: the highest address an instruction may be fetched from (R172). -/
abbrev pcMax : Nat := 0xFFE

/-- `ROM_MAX`: the longest ROM the loader accepts, in bytes (20_memory.md R63). -/
abbrev romMax : Nat := 3583

/-- `STACK_DEPTH` (10_state.md R25). -/
abbrev stackDepth : Nat := 16

/-- `DISPLAY_W`: pixels in a row. -/
abbrev displayW : Nat := 64

/-- `DISPLAY_H`: rows. -/
abbrev displayH : Nat := 32

/-- FREE VALUE (40_alu.md R113, log 2): the random byte on offer in turn `n`, unless the host has given
one. It has no body, so nothing can be proved of its value. -/
opaque randDraw : Nat → Byte

/-- FREE VALUE (10_state.md R34, log 3): the levels of the 16 keys in turn `n`, bit `k` for key `k`,
unless the host has given them. Two turns need not agree. -/
opaque keyLevels : Nat → BitVec 16

/-- FREE VALUE (60_exceptions.md R181, 43_keypad_timers.md R140, log 1): the turns between the `b`-th
free tick and the one before it, any number of them and any turns at all, ticks among them. -/
opaque turns : Nat → List Turn

/-- Where turn `n` stands in the free schedule, which is `turns 0`, a tick, `turns 1`, a tick, and so
on: the number of the block and the place in it. -/
def place : Nat → Nat × Nat
  | 0 => (0, 0)
  | n + 1 => if (place n).2 < (turns (place n).1).length then ((place n).1, (place n).2 + 1)
    else ((place n).1 + 1, 0)

/-- Turn `n` of the free schedule. Every schedule with ticks without end has this form and every
schedule of this form has them: nothing is assumed of it but the fairness of 60_exceptions.md R181. -/
def freeTurn (n : Nat) : Turn := (turns (place n).1)[(place n).2]?.getD .tick

end Sys2Proof.Config
end

