-- ==== Sys2Proof/Machine/State.lean ====
section
/-! DEFINITION. The state of the machine as plain data (10_state.md R20 to R36), the reasons a turn can
stop, and the state after reset (R40). -/

namespace Sys2Proof.Machine

/-- Memory: the bytes that differ from what an unlisted address reads as (`Memory.initialByte`), by
strictly rising address (20_memory.md R50). -/
abbrev Memory := List Host.Cell

/-- The pixels of the reference collaborator (10_state.md R33, 42_display.md R134): 32 rows of 64
columns, bit `col` of a row for the pixel in column `col`. -/
abbrev Framebuffer := Vector (BitVec 64) 32

/-- The four fatal conditions (60_exceptions.md R170). -/
inductive HaltCause where
  | decodeFailure
  | addressEscape
  | stackOverflow
  | stackUnderflow
  deriving DecidableEq, Repr

/-- The state of the interpreter loop (10_state.md R29). -/
inductive RunState where
  | running
  /-- Waiting in `LD Vx, K` for a key-down edge; `x` is the destination register. -/
  | awaitingKey (x : Nibble)
  | halted (cause : HaltCause)
  deriving DecidableEq, Repr

/-- The halt cause record (10_state.md R30): code 0 means not halted. -/
structure HaltRecord where
  code   : Fin 5
  atPc   : Word
  opcode : Word
  deriving DecidableEq, Repr

/-- What a run fixes of the inputs of one turn; what it does not fix is free (logs 1, 2, 3). -/
structure Given where
  turn : Option Turn
  draw : Option Byte
  keys : Option (BitVec 16)
  deriving DecidableEq, Repr

/-- The MODEL's own fields: the free inputs of the step (10_state.md R34 to R36). They are parameters of
a run, not state the machine updates: no instruction, tick or host event writes them, and a step moves
`count` on to the next turn and nothing else (log 1). -/
structure Inputs where
  /-- Entry `k` is what the run fixes of turn `k`; a turn past the end is wholly free. -/
  given : List Given
  /-- The number of the turn to come. -/
  count : Nat
  deriving DecidableEq, Repr

/-- The machine's state. -/
structure State where
  /-- V0 to VF (10_state.md R21, R22). -/
  v       : Vector Byte 16
  /-- The address register I (R23). -/
  i       : Word
  /-- The program counter (R24). -/
  pc      : Word
  /-- The stack pointer: the number of live entries (R25). -/
  sp      : Fin 17
  /-- The call stack, a dedicated array (R25). -/
  stack   : Vector Word 16
  /-- The delay timer (R26). -/
  dt      : Byte
  /-- The sound timer (R27). -/
  st      : Byte
  /-- Memory (R32). -/
  mem     : Memory
  /-- The run state (R29). -/
  run     : RunState
  /-- The halt cause record (R30). -/
  halt    : HaltRecord
  /-- The framebuffer FB of the reference collaborator (R33). -/
  fb      : Framebuffer
  /-- The model's own: the inputs of the steps to come. -/
  inputs  : Inputs
  /-- The model's own: an instruction step has happened since reset (20_memory.md R63, log 8). -/
  started : Bool
  deriving DecidableEq, Repr

/-- Why a turn can end in a fault. -/
inductive Fault where
  /-- Raised by `step` when the interpreter has a turn in `Halted`, where no instruction step is
  enabled (60_exceptions.md R177); it reports the halt record. SAFE: the machine does nothing there. -/
  | halted (record : HaltRecord)
  deriving DecidableEq, Repr

/-- Why a turn can be refused. -/
inductive Refusal where
  /-- Raised by an arm of `exec` for an instruction without a meaning. SAFE: no arm does. -/
  | notModelled (mnemonic : String)
  /-- Raised by a load of more than 3583 bytes, which the loader refuses (20_memory.md R63). SAFE: the
  machine does not start. -/
  | romTooLong (length : Nat)
  /-- Raised by a load after the first instruction step, to which the spec gives no meaning
  (20_memory.md R63, D28). SAFE: nothing goes on from there. -/
  | loadAfterStart
  deriving DecidableEq, Repr

/-- The record of a machine that is not halted (10_state.md R30). -/
def HaltRecord.none : HaltRecord := ⟨0, 0, 0⟩

/-- Nothing fixed. -/
def Given.free : Given := { turn := none, draw := none, keys := none }

/-- The inputs after reset: every input of every turn is free (DESIGN CHOICE of the form, log 1). -/
def Inputs.free : Inputs := { given := [], count := 0 }

/-- The machine right after reset (10_state.md R40, 70_reset_and_hazards.md R200). Memory lists nothing:
unlisted addresses read as their reset contents, zero and the font. -/
def State.reset : State :=
  { v := Vector.replicate 16 0
    i := 0
    pc := 0x0200
    sp := 0
    stack := Vector.replicate 16 0
    dt := 0
    st := 0
    mem := []
    run := .running
    halt := HaltRecord.none
    fb := Vector.replicate 32 0
    inputs := Inputs.free
    started := false }

end Sys2Proof.Machine
end

