-- ==== Sys2Proof/Machine/Ops.lean ====
section
/-! DEFINITION. The operations over memory, registers, stack, framebuffer and run state that the
instructions share. Each names the rule it follows; no instruction touches a field but through them. -/

namespace Sys2Proof.Machine

/-! ## Memory (20_memory.md) -/

/-- The 80 font bytes, glyph after glyph, top row first (R64). -/
def fontBytes : List Byte :=
  [0xF0, 0x90, 0x90, 0x90, 0xF0] ++ -- 0
  [0x20, 0x60, 0x20, 0x20, 0x70] ++ -- 1
  [0xF0, 0x10, 0xF0, 0x80, 0xF0] ++ -- 2
  [0xF0, 0x10, 0xF0, 0x10, 0xF0] ++ -- 3
  [0x90, 0x90, 0xF0, 0x10, 0x10] ++ -- 4
  [0xF0, 0x80, 0xF0, 0x10, 0xF0] ++ -- 5
  [0xF0, 0x80, 0xF0, 0x90, 0xF0] ++ -- 6
  [0xF0, 0x10, 0x20, 0x40, 0x40] ++ -- 7
  [0xF0, 0x90, 0xF0, 0x90, 0xF0] ++ -- 8
  [0xF0, 0x90, 0xF0, 0x10, 0xF0] ++ -- 9
  [0xF0, 0x90, 0xF0, 0x90, 0x90] ++ -- A
  [0xE0, 0x90, 0xE0, 0x90, 0xE0] ++ -- B
  [0xF0, 0x80, 0x80, 0x80, 0xF0] ++ -- C
  [0xE0, 0x90, 0x90, 0x90, 0xE0] ++ -- D
  [0xF0, 0x80, 0xF0, 0x80, 0xF0] ++ -- E
  [0xF0, 0x80, 0xF0, 0x80, 0x80]    -- F

/-- `FONT_BASE` (00_scope.md R7). -/
def fontBase : Nat := 0x100

/-- What an address that memory does not list reads as: its contents after reset, the font at
0x100..0x14F and zero everywhere else (10_state.md R40). -/
def Memory.initialByte (a : Nat) : Byte :=
  if a < fontBase then 0 else fontBytes.getD (a - fontBase) 0

/-- The byte at address `a`. -/
def Memory.read : Memory → Nat → Byte
  | [], a => Memory.initialByte a
  | (b, w) :: rest, a => if b = a then w else Memory.read rest a

/-- Memory with no pair for `a`. -/
def Memory.erase (m : Memory) (a : Nat) : Memory := m.filter (fun c => c.1 != a)

/-- Memory with the pair `(a, w)` put before the first higher address. -/
def Memory.insert : Memory → Nat → Byte → Memory
  | [], a, w => [(a, w)]
  | (b, u) :: rest, a, w =>
    if a < b then (a, w) :: (b, u) :: rest else (b, u) :: Memory.insert rest a w

/-- Memory with the byte `w` at address `a`; writing what the unlisted address reads as removes the
entry, so that canonical memory stays canonical. -/
def Memory.write (m : Memory) (a : Nat) (w : Byte) : Memory :=
  if w = Memory.initialByte a then m.erase a else Memory.insert (m.erase a) a w

/-- The canonical form: addresses strictly rising and inside the memory array, and no entry equal to
what an unlisted address reads as. -/
abbrev Memory.wf (m : Memory) : Prop :=
  m.Pairwise (fun c d => c.1 < d.1) ∧
    ∀ c ∈ m, c.1 < Config.memSize ∧ c.2 ≠ Memory.initialByte c.1

/-- `MemRead(addr, 1)`: the address is a natural number, reduced modulo 4096 (R55). -/
def State.memRead (s : State) (addr : Nat) : Byte := s.mem.read (addr % Config.memSize)

/-- `MemWrite(addr, 1, w)` (R55). -/
def State.memWrite (s : State) (addr : Nat) (w : Byte) : State :=
  { s with mem := s.mem.write (addr % Config.memSize) w }

/-- Stores `bytes 0`, `bytes 1`, … `bytes (count - 1)` at `addr`, `addr + 1`, …, in ascending order. -/
def State.storeBytes (s : State) (addr : Nat) (bytes : Nat → Byte) (count : Nat) : State :=
  (List.range count).foldl (fun t k => t.memWrite (addr + k) (bytes k)) s

/-! ## Data registers, address register, program counter (10_state.md R21 to R24) -/

/-- `V[x]`. -/
def State.getV (s : State) (x : Nibble) : Byte := s.v[x.toNat]'x.isLt

/-- `V[x] <- b`. -/
def State.setV (s : State) (x : Nibble) (b : Byte) : State :=
  { s with v := s.v.set x.toNat b x.isLt }

/-- The number of VF, the only flag (R22). -/
def vf : Nibble := 0xF

/-- `I <- w`: a write of I stores `w & 0x0FFF` (R23). -/
def State.setI (s : State) (w : Word) : State := { s with i := w &&& 0x0FFF }

/-- `pc <- w` (R24). -/
def State.setPc (s : State) (w : Word) : State := { s with pc := w }

/-- `pc <- pc + 2`. -/
def State.advance (s : State) : State := s.setPc (s.pc + 2)

/-- The skip: `pc <- pc + 4` if the condition holds, else `pc <- pc + 2` (44_flow_control.md R156). -/
def State.skipIf (s : State) (c : Bool) : State := s.setPc (if c then s.pc + 4 else s.pc + 2)

/-- Sets DT (R26). -/
def State.setDt (s : State) (b : Byte) : State := { s with dt := b }

/-- Sets ST (R27). -/
def State.setSt (s : State) (b : Byte) : State := { s with st := b }

/-! ## The call stack (10_state.md R25) -/

/-- Push: requires `SP < 16`; `STACK[SP] <- w; SP <- SP + 1`. -/
def State.push (s : State) (w : Word) (h : s.sp.val < 16) : State :=
  { s with stack := s.stack.set s.sp.val w h, sp := ⟨s.sp.val + 1, by omega⟩ }

/-- What a pop would deliver: `STACK[SP - 1]`; requires `SP > 0`. -/
def State.top (s : State) (h : 0 < s.sp.val) : Word :=
  s.stack[s.sp.val - 1]'(by have := s.sp.isLt; omega)

/-- `SP <- SP - 1`; the popped entry keeps its value in the array. -/
def State.drop (s : State) : State := { s with sp := ⟨s.sp.val - 1, by have := s.sp.isLt; omega⟩ }

/-! ## The reference collaborator's framebuffer (42_display.md R134 to R136) -/

/-- `FB[row][col]`. -/
def Framebuffer.pixel (fb : Framebuffer) (row : Fin 32) (col : Fin 64) : Bool :=
  (fb[row.val]'row.isLt).getLsbD col.val

/-- `FB[row][col] <- FB[row][col] ^ 1`. -/
def Framebuffer.flip (fb : Framebuffer) (row : Fin 32) (col : Fin 64) : Framebuffer :=
  fb.set row.val (fb[row.val]'row.isLt ^^^ (1#64 <<< col.val)) row.isLt

/-- `clear_screen()` (R135). -/
def Framebuffer.clear : Framebuffer := Vector.replicate 32 0

/-- Horizontal wraparound: column `x` modulo 64 (R136). -/
def wrapCol (x : Nat) : Fin 64 := ⟨x % Config.displayW, Nat.mod_lt _ (by decide)⟩

/-- Vertical wraparound: row `y` modulo 32 (R136). -/
def wrapRow (y : Nat) : Fin 32 := ⟨y % Config.displayH, Nat.mod_lt _ (by decide)⟩

/-- One pixel of `draw_row`: bit `7 - c` of the sprite byte is column `x + c` modulo 64; a 0 bit does
nothing, a 1 bit flips its pixel and collides if the pixel was set (R136). -/
def Framebuffer.drawPixel (bits : Byte) (x : Nat) (row : Fin 32) (acc : Framebuffer × Bool) (c : Nat) :
    Framebuffer × Bool :=
  if bits.getLsbD (7 - c) then
    (acc.1.flip row (wrapCol (x + c)), acc.2 || acc.1.pixel row (wrapCol (x + c)))
  else acc

/-- `draw_row(bits, x, y) -> collided`: columns in ascending order, row `y` modulo 32 (R136). -/
def Framebuffer.drawRow (fb : Framebuffer) (bits : Byte) (x y : Nat) : Framebuffer × Bool :=
  (List.range 8).foldl (Framebuffer.drawPixel bits x (wrapRow y)) (fb, false)

/-- One `draw_row` call for each of the `n` rows, in ascending order; the reply is the OR of the
replies (R132). -/
def Framebuffer.drawSprite (fb : Framebuffer) (sprite : Nat → Byte) (px py n : Nat) :
    Framebuffer × Bool :=
  (List.range n).foldl
    (fun acc r => ((acc.1.drawRow (sprite r) px (py + r)).1,
      acc.2 || (acc.1.drawRow (sprite r) px (py + r)).2))
    (fb, false)

/-- Sets the framebuffer. -/
def State.setFb (s : State) (fb : Framebuffer) : State := { s with fb := fb }

/-! ## Fetch (20_memory.md R52, 60_exceptions.md R172) -/

/-- The fetch window: `0x0200 <= pc <= 0x0FFE`. -/
def State.pcInWindow (s : State) : Bool := Config.pcMin ≤ s.pc.toNat && s.pc.toNat ≤ Config.pcMax

/-- The byte at `pc`, the high byte of the opcode. -/
def State.fetchHigh (s : State) : Byte := s.mem.read s.pc.toNat

/-- The byte at `pc + 1`, the low byte of the opcode. -/
def State.fetchLow (s : State) : Byte := s.mem.read (s.pc.toNat + 1)

/-! ## Taking a fatal condition (60_exceptions.md R170, R176) -/

/-- The code of each fatal condition (R170). -/
def HaltCause.code : HaltCause → Fin 5
  | .decodeFailure => 1
  | .addressEscape => 2
  | .stackOverflow => 3
  | .stackUnderflow => 4

/-- `raise Halt(cause, at_pc, opcode)`: writes the run state and the halt record and nothing else; `pc`
keeps the address of the failing instruction, which is the `at_pc` recorded (R176). There is no handler
and no return (R177): the only way out is `State.hostReset` in Machine/Events.lean. -/
def State.raiseHalt (s : State) (cause : HaltCause) (opcode : Word) : State :=
  { s with run := .halted cause, halt := ⟨cause.code, s.pc, opcode⟩ }

/-! ## Run state and outputs -/

/-- Half 1 of `LD Vx, K`: only the run state changes (43_keypad_timers.md R143). -/
def State.awaitKey (s : State) (x : Nibble) : State := { s with run := .awaitingKey x }

/-- The output `sound_active` (60_exceptions.md R184). -/
def State.soundActive (s : State) : Bool := s.st != 0

end Sys2Proof.Machine
end

