-- ==== Sys2Proof/Machine/Flags.lean ====
section
/-! DEFINITION. The results and flags of the five flag instructions (40_alu.md R107 to R112) and the one
order in which result and flag are written (R100). -/

namespace Sys2Proof.Machine

/-- A result and the flag that goes to VF. -/
structure Flagged where
  value : Byte
  flag  : Bool
  deriving DecidableEq, Repr

/-- A flag as the full byte 0x00 or 0x01 (10_state.md R22). -/
def flagByte (b : Bool) : Byte := if b then 1 else 0

/-- Sum modulo 256; the flag is the carry, bit 8 of the 9-bit sum (R107). -/
def addCarry (a b : Byte) : Flagged :=
  { value := BitVec.ofNat 8 ((a.toNat + b.toNat) % 256), flag := a.toNat + b.toNat > 255 }

/-- Difference `a - b` modulo 256; the flag is the not-borrow, 1 iff `a >= b` (R108, R112). -/
def subNotBorrow (a b : Byte) : Flagged :=
  { value := a - b, flag := a.toNat ≥ b.toNat }

/-- Logical shift right by one; the flag is the bit shifted out, bit 0 (R109). -/
def shiftRightOut (a : Byte) : Flagged := { value := a >>> 1, flag := a.getLsbD 0 }

/-- Shift left by one modulo 256; the flag is the bit shifted out, bit 7 (R111). -/
def shiftLeftOut (a : Byte) : Flagged := { value := a <<< 1, flag := a.getLsbD 7 }

/-- Writes VF with a flag. -/
def State.setFlag (s : State) (b : Bool) : State := s.setV vf (flagByte b)

/-- The order of R100: `V[x]` is written with the result, then VF with the flag, then `pc + 2`. -/
def State.writeFlagged (s : State) (x : Nibble) (r : Flagged) : State :=
  ((s.setV x r.value).setFlag r.flag).advance

end Sys2Proof.Machine
end

