-- ==== Sys2Proof/Machine/Operands.lean ====
section
/-! DEFINITION. How instructions form their operands: zero extension, narrowing to a nibble, effective
addresses, decimal digits, and the inputs that an instruction samples. -/

namespace Sys2Proof.Machine

/-- `zext_16` of an address immediate (30_encoding.md R73). -/
def zextAddr (nnn : Addr) : Word := nnn.setWidth 16

/-- `zext_16` of a register (41_index_memory.md R122, 44_flow_control.md R155). -/
def zextByte (b : Byte) : Word := b.setWidth 16

/-- `zext_8` of a key number (43_keypad_timers.md R143). -/
def zextNibble (k : Nibble) : Byte := k.setWidth 8

/-- `V[x][3:0]`: the digit of `LD F` (41_index_memory.md R123) and the key number of `SKP` and `SKNP`
(43_keypad_timers.md R141). -/
def lowNibble (b : Byte) : Nibble := b.extractLsb' 0 4

/-- `0x100 + 5 * d` (41_index_memory.md R123). -/
def fontAddress (d : Nibble) : Word := 0x100 + 5 * d.setWidth 16

/-- The address of access number `k`, before the reduction modulo 4096 that `memRead` and `memWrite`
make: `I + k` (41_index_memory.md R120). -/
def State.ea (s : State) (k : Nat) : Nat := s.i.toNat + k

/-- `V[k]` for the `k`-th register of a range transfer (41_index_memory.md R125). -/
def State.rangeV (s : State) (k : Nat) : Byte := s.getV (BitVec.ofNat 4 k)

/-- The hundreds, tens and ones digits of a byte, digit 0 the hundreds (41_index_memory.md R124). -/
def bcdDigit (a : Byte) (k : Nat) : Byte :=
  if k = 0 then BitVec.ofNat 8 (a.toNat / 100)
  else if k = 1 then BitVec.ofNat 8 (a.toNat / 10 % 10)
  else BitVec.ofNat 8 (a.toNat % 10)

/-- Loads `V[0]` … `V[count - 1]` from `I`, `I + 1`, …, in ascending order (41_index_memory.md R127). -/
def State.loadRange (s : State) (count : Nat) : State :=
  (List.range count).foldl (fun t k => t.setV (BitVec.ofNat 4 k) (t.memRead (t.ea k))) s

/-! ## Inputs an instruction samples -/

/-- What the run fixes of the turn to come. -/
def Inputs.now (n : Inputs) : Given := n.given.getD n.count Given.free

/-- `rand_draw()`: the byte the run fixes for this turn, else a free value (40_alu.md R113, log 2). An
instruction draws at most once, so the byte of its turn is a fresh one. -/
def Inputs.draw (n : Inputs) : Byte := n.now.draw.getD (Config.randDraw n.count)

/-- The levels of the 16 keys in this turn: those the run fixes, else a free value (10_state.md R34,
log 3). -/
def Inputs.levels (n : Inputs) : BitVec 16 := n.now.keys.getD (Config.keyLevels n.count)

/-- The inputs of the next turn. -/
def Inputs.moveOn (n : Inputs) : Inputs := { n with count := n.count + 1 }

/-- The inputs with those of the turn to come fixed as `f` says, and no others. -/
def Inputs.fix (n : Inputs) (f : Given → Given) : Inputs :=
  { n with given :=
    (n.given ++ List.replicate (n.count + 1 - n.given.length) Given.free).set n.count (f n.now) }

/-- Sets the inputs. -/
def State.setInputs (s : State) (n : Inputs) : State := { s with inputs := n }

/-- `is_key_down(k)` at this sample (43_keypad_timers.md R140). -/
def State.isKeyDown (s : State) (k : Nibble) : Bool := s.inputs.levels.getLsbD k.toNat

end Sys2Proof.Machine
end

