-- ==== Sys2Proof/Machine/Alu.lean ====
section
/-! DEFINITION. Register load, arithmetic, logic, shift and random instructions (40_alu.md). -/

namespace Sys2Proof.Machine

/-- `LD Vx, byte` (R101). -/
def execLdImm (x : Nibble) (nn : Byte) (s : State) : Host.Outcome State Fault Refusal :=
  .next (s.setV x nn).advance

/-- `ADD Vx, byte` (R102): no flag. -/
def execAddImm (x : Nibble) (nn : Byte) (s : State) : Host.Outcome State Fault Refusal :=
  .next (s.setV x (s.getV x + nn)).advance

/-- `LD Vx, Vy` (R103). -/
def execLdReg (x y : Nibble) (s : State) : Host.Outcome State Fault Refusal :=
  .next (s.setV x (s.getV y)).advance

/-- `OR Vx, Vy` (R104): VF unchanged. -/
def execOr (x y : Nibble) (s : State) : Host.Outcome State Fault Refusal :=
  .next (s.setV x (s.getV x ||| s.getV y)).advance

/-- `AND Vx, Vy` (R105): VF unchanged. -/
def execAnd (x y : Nibble) (s : State) : Host.Outcome State Fault Refusal :=
  .next (s.setV x (s.getV x &&& s.getV y)).advance

/-- `XOR Vx, Vy` (R106): VF unchanged. -/
def execXor (x y : Nibble) (s : State) : Host.Outcome State Fault Refusal :=
  .next (s.setV x (s.getV x ^^^ s.getV y)).advance

/-- `ADD Vx, Vy` (R107): VF = carry. -/
def execAddReg (x y : Nibble) (s : State) : Host.Outcome State Fault Refusal :=
  .next (s.writeFlagged x (addCarry (s.getV x) (s.getV y)))

/-- `SUB Vx, Vy` (R108): VF = not-borrow of `V[x] - V[y]`. -/
def execSub (x y : Nibble) (s : State) : Host.Outcome State Fault Refusal :=
  .next (s.writeFlagged x (subNotBorrow (s.getV x) (s.getV y)))

/-- `SHR Vx` (R109): in place; `y` is encoded and ignored (R79). -/
def execShr (x _y : Nibble) (s : State) : Host.Outcome State Fault Refusal :=
  .next (s.writeFlagged x (shiftRightOut (s.getV x)))

/-- `SUBN Vx, Vy` (R110): VF = not-borrow of `V[y] - V[x]`. -/
def execSubn (x y : Nibble) (s : State) : Host.Outcome State Fault Refusal :=
  .next (s.writeFlagged x (subNotBorrow (s.getV y) (s.getV x)))

/-- `SHL Vx` (R111): in place; `y` is encoded and ignored (R79). -/
def execShl (x _y : Nibble) (s : State) : Host.Outcome State Fault Refusal :=
  .next (s.writeFlagged x (shiftLeftOut (s.getV x)))

/-- `RND Vx, byte` (R113): a fresh free byte ANDed with the mask. -/
def execRnd (x : Nibble) (nn : Byte) (s : State) : Host.Outcome State Fault Refusal :=
  .next (s.setV x (s.inputs.draw &&& nn)).advance

end Sys2Proof.Machine
end

