-- ==== Sys2Proof/Machine/Display.lean ====
section
/-! DEFINITION. Display instructions (42_display.md). -/

namespace Sys2Proof.Machine

/-- `CLS` (R131): VF is not written. -/
def execCls (s : State) : Host.Outcome State Fault Refusal :=
  .next (s.setFb Framebuffer.clear).advance

/-- What `DRW Vx, Vy, n` draws: the new framebuffer and whether a pixel collided. The position is read
before VF is written, the sprite is the `n` bytes at I (R132). -/
def State.sprite (s : State) (x y n : Nibble) : Framebuffer × Bool :=
  s.fb.drawSprite (fun r => s.memRead (s.ea r)) (s.getV x).toNat (s.getV y).toNat n.toNat

/-- `DRW Vx, Vy, nibble` (R132): VF = collision, written last, also when `n = 0`; I unchanged. -/
def execDrw (x y n : Nibble) (s : State) : Host.Outcome State Fault Refusal :=
  .next ((s.setFb (s.sprite x y n).1).setFlag (s.sprite x y n).2).advance

end Sys2Proof.Machine
end

