-- ==== Sys2Proof/Syntax.lean ====
section
/-! DEFINITION. The instructions: one constructor per row of the opcode map (30_encoding.md R75). -/

namespace Sys2Proof

/-- The 35 instructions. `x` and `y` are register numbers, `nn` an 8-bit immediate, `nnn` a 12-bit
address immediate and `n` a row count; the don't-care fields of `SYS`, `SHR` and `SHL` (R79) are kept,
so that an instruction stands for exactly one word. -/
inductive Instr where
  | cls
  | ret
  | sys (nnn : Addr)
  | jp (nnn : Addr)
  | call (nnn : Addr)
  | seImm (x : Nibble) (nn : Byte)
  | sneImm (x : Nibble) (nn : Byte)
  | seReg (x y : Nibble)
  | ldImm (x : Nibble) (nn : Byte)
  | addImm (x : Nibble) (nn : Byte)
  | ldReg (x y : Nibble)
  | or (x y : Nibble)
  | and (x y : Nibble)
  | xor (x y : Nibble)
  | addReg (x y : Nibble)
  | sub (x y : Nibble)
  | shr (x y : Nibble)
  | subn (x y : Nibble)
  | shl (x y : Nibble)
  | sneReg (x y : Nibble)
  | ldI (nnn : Addr)
  | jpV0 (nnn : Addr)
  | rnd (x : Nibble) (nn : Byte)
  | drw (x y n : Nibble)
  | skp (x : Nibble)
  | sknp (x : Nibble)
  | ldVxDt (x : Nibble)
  | ldVxK (x : Nibble)
  | ldDtVx (x : Nibble)
  | ldStVx (x : Nibble)
  | addIVx (x : Nibble)
  | ldFVx (x : Nibble)
  | ldBVx (x : Nibble)
  | ldMemVx (x : Nibble)
  | ldVxMem (x : Nibble)
  deriving DecidableEq, Repr

end Sys2Proof
end

