-- ==== Sys2Proof/Decode.lean ====
section
/-! DEFINITION. From words and bytes to instructions and back (30_encoding.md R70 to R79). -/

namespace Sys2Proof

/-! ## Fields (R71) -/

/-- `fam = op[15:12]`. -/
def fieldFam (op : Word) : Nibble := op.extractLsb' 12 4
/-- `x = op[11:8]`. -/
def fieldX (op : Word) : Nibble := op.extractLsb' 8 4
/-- `y = op[7:4]`. -/
def fieldY (op : Word) : Nibble := op.extractLsb' 4 4
/-- `n = op[3:0]`. -/
def fieldN (op : Word) : Nibble := op.extractLsb' 0 4
/-- `nn = op[7:0]`. -/
def fieldNN (op : Word) : Byte := op.extractLsb' 0 8
/-- `nnn = op[11:0]`. -/
def fieldNNN (op : Word) : Addr := op.extractLsb' 0 12

/-! ## Decoding a word (R74) -/

/-- Why there is no instruction. -/
inductive DecodeError where
  /-- The word matches no pattern (30_encoding.md R76). -/
  | decodeFailure (op : Word)
  /-- Fewer than the two bytes of an instruction were given. -/
  | truncated
  deriving DecidableEq, Repr

/-- The decoder's answer: an instruction, or the reason there is none. -/
inductive Decoded where
  | ok (i : Instr)
  | error (e : DecodeError)
  deriving DecidableEq, Repr

/-- The second level of family 8: the last nibble. -/
def decodeFam8 (op : Word) : Decoded :=
  match fieldN op with
  | 0x0#4 => .ok (.ldReg (fieldX op) (fieldY op))
  | 0x1#4 => .ok (.or (fieldX op) (fieldY op))
  | 0x2#4 => .ok (.and (fieldX op) (fieldY op))
  | 0x3#4 => .ok (.xor (fieldX op) (fieldY op))
  | 0x4#4 => .ok (.addReg (fieldX op) (fieldY op))
  | 0x5#4 => .ok (.sub (fieldX op) (fieldY op))
  | 0x6#4 => .ok (.shr (fieldX op) (fieldY op))
  | 0x7#4 => .ok (.subn (fieldX op) (fieldY op))
  | 0xE#4 => .ok (.shl (fieldX op) (fieldY op))
  | _ => .error (.decodeFailure op)

/-- The second level of family E: the last byte. -/
def decodeFamE (op : Word) : Decoded :=
  match fieldNN op with
  | 0x9E#8 => .ok (.skp (fieldX op))
  | 0xA1#8 => .ok (.sknp (fieldX op))
  | _ => .error (.decodeFailure op)

/-- The second level of family F: the last byte. -/
def decodeFamF (op : Word) : Decoded :=
  match fieldNN op with
  | 0x07#8 => .ok (.ldVxDt (fieldX op))
  | 0x0A#8 => .ok (.ldVxK (fieldX op))
  | 0x15#8 => .ok (.ldDtVx (fieldX op))
  | 0x18#8 => .ok (.ldStVx (fieldX op))
  | 0x1E#8 => .ok (.addIVx (fieldX op))
  | 0x29#8 => .ok (.ldFVx (fieldX op))
  | 0x33#8 => .ok (.ldBVx (fieldX op))
  | 0x55#8 => .ok (.ldMemVx (fieldX op))
  | 0x65#8 => .ok (.ldVxMem (fieldX op))
  | _ => .error (.decodeFailure op)

/-- The decoder of 30_encoding.md R74: first the family, then the last nibble or byte. -/
def decodeWord (op : Word) : Decoded :=
  match fieldFam op with
  | 0x0#4 =>
    if op = 0x00E0#16 then .ok .cls
    else if op = 0x00EE#16 then .ok .ret
    else .ok (.sys (fieldNNN op))
  | 0x1#4 => .ok (.jp (fieldNNN op))
  | 0x2#4 => .ok (.call (fieldNNN op))
  | 0x3#4 => .ok (.seImm (fieldX op) (fieldNN op))
  | 0x4#4 => .ok (.sneImm (fieldX op) (fieldNN op))
  | 0x5#4 => if fieldN op = 0x0#4 then .ok (.seReg (fieldX op) (fieldY op)) else .error (.decodeFailure op)
  | 0x6#4 => .ok (.ldImm (fieldX op) (fieldNN op))
  | 0x7#4 => .ok (.addImm (fieldX op) (fieldNN op))
  | 0x8#4 => decodeFam8 op
  | 0x9#4 => if fieldN op = 0x0#4 then .ok (.sneReg (fieldX op) (fieldY op)) else .error (.decodeFailure op)
  | 0xA#4 => .ok (.ldI (fieldNNN op))
  | 0xB#4 => .ok (.jpV0 (fieldNNN op))
  | 0xC#4 => .ok (.rnd (fieldX op) (fieldNN op))
  | 0xD#4 => .ok (.drw (fieldX op) (fieldY op) (fieldN op))
  | 0xE#4 => decodeFamE op
  | _ => decodeFamF op  -- the one nibble left is 0xF

/-! ## The opcode map as a table (R75) -/

/-- One row of the opcode map: it selects `op` when `op & mask = pattern`. -/
structure OpcodeRow where
  pattern : Word
  mask    : Word
  instr   : Word → Instr

/-- The 35 rows, in the map's order; rows 1 and 2 take precedence over row 3. -/
def opcodeMap : List OpcodeRow :=
  [⟨0x00E0, 0xFFFF, fun _ => .cls⟩,
   ⟨0x00EE, 0xFFFF, fun _ => .ret⟩,
   ⟨0x0000, 0xF000, fun op => .sys (fieldNNN op)⟩,
   ⟨0x1000, 0xF000, fun op => .jp (fieldNNN op)⟩,
   ⟨0x2000, 0xF000, fun op => .call (fieldNNN op)⟩,
   ⟨0x3000, 0xF000, fun op => .seImm (fieldX op) (fieldNN op)⟩,
   ⟨0x4000, 0xF000, fun op => .sneImm (fieldX op) (fieldNN op)⟩,
   ⟨0x5000, 0xF00F, fun op => .seReg (fieldX op) (fieldY op)⟩,
   ⟨0x6000, 0xF000, fun op => .ldImm (fieldX op) (fieldNN op)⟩,
   ⟨0x7000, 0xF000, fun op => .addImm (fieldX op) (fieldNN op)⟩] ++
  [⟨0x8000, 0xF00F, fun op => .ldReg (fieldX op) (fieldY op)⟩,
   ⟨0x8001, 0xF00F, fun op => .or (fieldX op) (fieldY op)⟩,
   ⟨0x8002, 0xF00F, fun op => .and (fieldX op) (fieldY op)⟩,
   ⟨0x8003, 0xF00F, fun op => .xor (fieldX op) (fieldY op)⟩,
   ⟨0x8004, 0xF00F, fun op => .addReg (fieldX op) (fieldY op)⟩,
   ⟨0x8005, 0xF00F, fun op => .sub (fieldX op) (fieldY op)⟩,
   ⟨0x8006, 0xF00F, fun op => .shr (fieldX op) (fieldY op)⟩,
   ⟨0x8007, 0xF00F, fun op => .subn (fieldX op) (fieldY op)⟩,
   ⟨0x800E, 0xF00F, fun op => .shl (fieldX op) (fieldY op)⟩,
   ⟨0x9000, 0xF00F, fun op => .sneReg (fieldX op) (fieldY op)⟩] ++
  [⟨0xA000, 0xF000, fun op => .ldI (fieldNNN op)⟩,
   ⟨0xB000, 0xF000, fun op => .jpV0 (fieldNNN op)⟩,
   ⟨0xC000, 0xF000, fun op => .rnd (fieldX op) (fieldNN op)⟩,
   ⟨0xD000, 0xF000, fun op => .drw (fieldX op) (fieldY op) (fieldN op)⟩,
   ⟨0xE09E, 0xF0FF, fun op => .skp (fieldX op)⟩,
   ⟨0xE0A1, 0xF0FF, fun op => .sknp (fieldX op)⟩] ++
  [⟨0xF007, 0xF0FF, fun op => .ldVxDt (fieldX op)⟩,
   ⟨0xF00A, 0xF0FF, fun op => .ldVxK (fieldX op)⟩,
   ⟨0xF015, 0xF0FF, fun op => .ldDtVx (fieldX op)⟩,
   ⟨0xF018, 0xF0FF, fun op => .ldStVx (fieldX op)⟩,
   ⟨0xF01E, 0xF0FF, fun op => .addIVx (fieldX op)⟩,
   ⟨0xF029, 0xF0FF, fun op => .ldFVx (fieldX op)⟩,
   ⟨0xF033, 0xF0FF, fun op => .ldBVx (fieldX op)⟩,
   ⟨0xF055, 0xF0FF, fun op => .ldMemVx (fieldX op)⟩,
   ⟨0xF065, 0xF0FF, fun op => .ldVxMem (fieldX op)⟩]

/-- The instruction of the first row that selects `op`. -/
def lookupOpcode : List OpcodeRow → Word → Decoded
  | [], op => .error (.decodeFailure op)
  | row :: rest, op => if op &&& row.mask = row.pattern then .ok (row.instr op) else lookupOpcode rest op

/-! ## Bytes (20_memory.md R52: the byte at the lower address is the high byte) -/

/-- The word whose high byte is `hi` and whose low byte is `lo`. -/
def wordOfBytes (hi lo : Byte) : Word := hi ++ lo

/-- `op[15:8]`, the byte at the lower address. -/
def highByte (op : Word) : Byte := op.extractLsb' 8 8

/-- `op[7:0]`, the byte at the higher address. -/
def lowByte (op : Word) : Byte := op.extractLsb' 0 8

/-- The instruction at the head of a list of bytes and the bytes after it. -/
def decode : List Byte → Decoded × List Byte
  | hi :: lo :: rest => (decodeWord (wordOfBytes hi lo), rest)
  | [b] => (.error .truncated, [b])
  | [] => (.error .truncated, [])

/-- The instruction the decoder reads from a word that spec/opcode_table.json numbers with bit 0 as
its least significant bit: every row is one 16-bit word, laid out with its high byte first. -/
def decodeTableWord (nbits w : Nat) : Option Instr :=
  let op := BitVec.ofNat 16 (w % 2 ^ nbits)
  match (decode [highByte op, lowByte op]).1 with
  | .ok i => some i
  | .error _ => none

/-! ## Encoding (the formats of R72 filled in as R75 gives them) -/

/-- Formats XYN and FIXED: four nibbles. -/
def formatXYN (fam x y n : Nibble) : Word := fam ++ x ++ y ++ n

/-- Formats XNN and XSUB: family, register, byte. -/
def formatXNN (fam x : Nibble) (nn : Byte) : Word := fam ++ x ++ nn

/-- Format NNN: family and address. -/
def formatNNN (fam : Nibble) (nnn : Addr) : Word := fam ++ nnn

/-- The word of an instruction, written from the patterns of 30_encoding.md R75. -/
def encode : Instr → Word
  | .cls => 0x00E0#16
  | .ret => 0x00EE#16
  | .sys nnn => formatNNN 0x0 nnn
  | .jp nnn => formatNNN 0x1 nnn
  | .call nnn => formatNNN 0x2 nnn
  | .seImm x nn => formatXNN 0x3 x nn
  | .sneImm x nn => formatXNN 0x4 x nn
  | .seReg x y => formatXYN 0x5 x y 0x0
  | .ldImm x nn => formatXNN 0x6 x nn
  | .addImm x nn => formatXNN 0x7 x nn
  | .ldReg x y => formatXYN 0x8 x y 0x0
  | .or x y => formatXYN 0x8 x y 0x1
  | .and x y => formatXYN 0x8 x y 0x2
  | .xor x y => formatXYN 0x8 x y 0x3
  | .addReg x y => formatXYN 0x8 x y 0x4
  | .sub x y => formatXYN 0x8 x y 0x5
  | .shr x y => formatXYN 0x8 x y 0x6
  | .subn x y => formatXYN 0x8 x y 0x7
  | .shl x y => formatXYN 0x8 x y 0xE
  | .sneReg x y => formatXYN 0x9 x y 0x0
  | .ldI nnn => formatNNN 0xA nnn
  | .jpV0 nnn => formatNNN 0xB nnn
  | .rnd x nn => formatXNN 0xC x nn
  | .drw x y n => formatXYN 0xD x y n
  | .skp x => formatXNN 0xE x 0x9E
  | .sknp x => formatXNN 0xE x 0xA1
  | .ldVxDt x => formatXNN 0xF x 0x07
  | .ldVxK x => formatXNN 0xF x 0x0A
  | .ldDtVx x => formatXNN 0xF x 0x15
  | .ldStVx x => formatXNN 0xF x 0x18
  | .addIVx x => formatXNN 0xF x 0x1E
  | .ldFVx x => formatXNN 0xF x 0x29
  | .ldBVx x => formatXNN 0xF x 0x33
  | .ldMemVx x => formatXNN 0xF x 0x55
  | .ldVxMem x => formatXNN 0xF x 0x65

end Sys2Proof
end

