-- ==== Sys2Proof/Machine/Flow.lean ====
section
/-! DEFINITION. Control-flow instructions (44_flow_control.md). Every rule assigns the next `pc` itself. -/

namespace Sys2Proof.Machine

/-- `SYS addr` (R151): no operation; `nnn` is ignored. -/
def execSys (_nnn : Addr) (s : State) : Host.Outcome State Fault Refusal :=
  .next s.advance

/-- `RET` (R152): pops the address after the CALL, or StackUnderflow. -/
def execRet (s : State) : Host.Outcome State Fault Refusal :=
  if h : 0 < s.sp.val then .next (s.drop.setPc (s.top h))
  else .next (s.raiseHalt .stackUnderflow (encode .ret))

/-- `JP addr` (R153): the target is not checked here. -/
def execJp (nnn : Addr) (s : State) : Host.Outcome State Fault Refusal :=
  .next (s.setPc (zextAddr nnn))

/-- `CALL addr` (R154): pushes `pc + 2`, or StackOverflow. -/
def execCall (nnn : Addr) (s : State) : Host.Outcome State Fault Refusal :=
  if h : s.sp.val < 16 then .next ((s.push (s.pc + 2) h).setPc (zextAddr nnn))
  else .next (s.raiseHalt .stackOverflow (encode (.call nnn)))

/-- `JP V0, addr` (R155): the sum is not reduced modulo 4096. -/
def execJpV0 (nnn : Addr) (s : State) : Host.Outcome State Fault Refusal :=
  .next (s.setPc (zextAddr nnn + zextByte (s.getV 0)))

/-- `SE Vx, byte` (R156). -/
def execSeImm (x : Nibble) (nn : Byte) (s : State) : Host.Outcome State Fault Refusal :=
  .next (s.skipIf (s.getV x == nn))

/-- `SNE Vx, byte` (R157). -/
def execSneImm (x : Nibble) (nn : Byte) (s : State) : Host.Outcome State Fault Refusal :=
  .next (s.skipIf (s.getV x != nn))

/-- `SE Vx, Vy` (R158). -/
def execSeReg (x y : Nibble) (s : State) : Host.Outcome State Fault Refusal :=
  .next (s.skipIf (s.getV x == s.getV y))

/-- `SNE Vx, Vy` (R159). -/
def execSneReg (x y : Nibble) (s : State) : Host.Outcome State Fault Refusal :=
  .next (s.skipIf (s.getV x != s.getV y))

end Sys2Proof.Machine
end

