-- ==== Sys2Proof/Machine/Index.lean ====
section
/-! DEFINITION. Address-register and memory instructions (41_index_memory.md). -/

namespace Sys2Proof.Machine

/-- `LD I, addr` (R121). -/
def execLdI (nnn : Addr) (s : State) : Host.Outcome State Fault Refusal :=
  .next (s.setI (zextAddr nnn)).advance

/-- `ADD I, Vx` (R122): the sum is reduced modulo 4096, VF is not written. -/
def execAddIVx (x : Nibble) (s : State) : Host.Outcome State Fault Refusal :=
  .next (s.setI (s.i + zextByte (s.getV x))).advance

/-- `LD F, Vx` (R123): the address of the glyph of the low nibble of `V[x]`; no memory is read. -/
def execLdFVx (x : Nibble) (s : State) : Host.Outcome State Fault Refusal :=
  .next (s.setI (fontAddress (lowNibble (s.getV x)))).advance

/-- `LD B, Vx` (R124): hundreds, tens and ones digits to `I`, `I + 1`, `I + 2`. -/
def execLdBVx (x : Nibble) (s : State) : Host.Outcome State Fault Refusal :=
  .next (s.storeBytes (s.ea 0) (bcdDigit (s.getV x)) 3).advance

/-- `LD [I], Vx` (R126): stores `V[0]` … `V[x]`; I unchanged (R125). -/
def execLdMemVx (x : Nibble) (s : State) : Host.Outcome State Fault Refusal :=
  .next (s.storeBytes (s.ea 0) s.rangeV (x.toNat + 1)).advance

/-- `LD Vx, [I]` (R127): loads `V[0]` … `V[x]`; I unchanged (R125). -/
def execLdVxMem (x : Nibble) (s : State) : Host.Outcome State Fault Refusal :=
  .next (s.loadRange (x.toNat + 1)).advance

end Sys2Proof.Machine
end

