-- ==== Sys2Proof/Machine/Keypad.lean ====
section
/-! DEFINITION. Keypad and timer-register instructions (43_keypad_timers.md). -/

namespace Sys2Proof.Machine

/-- `SKP Vx` (R141): skips if the key in the low nibble of `V[x]` is down at this sample. -/
def execSkp (x : Nibble) (s : State) : Host.Outcome State Fault Refusal :=
  .next (s.skipIf (s.isKeyDown (lowNibble (s.getV x))))

/-- `SKNP Vx` (R142): skips if that key is not down. -/
def execSknp (x : Nibble) (s : State) : Host.Outcome State Fault Refusal :=
  .next (s.skipIf (!s.isKeyDown (lowNibble (s.getV x))))

/-- `LD Vx, K` (R143), half 1: suspends. Half 2 is `State.keyEdge` in Machine/Events.lean. -/
def execLdVxK (x : Nibble) (s : State) : Host.Outcome State Fault Refusal :=
  .next (s.awaitKey x)

/-- `LD Vx, DT` (R144). -/
def execLdVxDt (x : Nibble) (s : State) : Host.Outcome State Fault Refusal :=
  .next (s.setV x s.dt).advance

/-- `LD DT, Vx` (R145). -/
def execLdDtVx (x : Nibble) (s : State) : Host.Outcome State Fault Refusal :=
  .next (s.setDt (s.getV x)).advance

/-- `LD ST, Vx` (R146). -/
def execLdStVx (x : Nibble) (s : State) : Host.Outcome State Fault Refusal :=
  .next (s.setSt (s.getV x)).advance

end Sys2Proof.Machine
end

