-- ==== Sys2Proof/Machine/Dispatch.lean ====
section
/-! DEFINITION. One arm per instruction, in the order of the opcode map. -/

namespace Sys2Proof.Machine

/-- The effect of one instruction (44_flow_control.md R150: "the rule of that instruction; it assigns pc"). -/
def exec (i : Instr) (s : State) : Host.Outcome State Fault Refusal :=
  match i with
  | .cls => Sys2Proof.Machine.execCls s  -- CLS, R131
  | .ret => Sys2Proof.Machine.execRet s  -- RET, R152
  | .sys nnn => Sys2Proof.Machine.execSys nnn s  -- SYS addr, R151
  | .jp nnn => Sys2Proof.Machine.execJp nnn s  -- JP addr, R153
  | .call nnn => Sys2Proof.Machine.execCall nnn s  -- CALL addr, R154
  | .seImm x nn => Sys2Proof.Machine.execSeImm x nn s  -- SE Vx, byte, R156
  | .sneImm x nn => Sys2Proof.Machine.execSneImm x nn s  -- SNE Vx, byte, R157
  | .seReg x y => Sys2Proof.Machine.execSeReg x y s  -- SE Vx, Vy, R158
  | .ldImm x nn => Sys2Proof.Machine.execLdImm x nn s  -- LD Vx, byte, R101
  | .addImm x nn => Sys2Proof.Machine.execAddImm x nn s  -- ADD Vx, byte, R102
  | .ldReg x y => Sys2Proof.Machine.execLdReg x y s  -- LD Vx, Vy, R103
  | .or x y => Sys2Proof.Machine.execOr x y s  -- OR Vx, Vy, R104
  | .and x y => Sys2Proof.Machine.execAnd x y s  -- AND Vx, Vy, R105
  | .xor x y => Sys2Proof.Machine.execXor x y s  -- XOR Vx, Vy, R106
  | .addReg x y => Sys2Proof.Machine.execAddReg x y s  -- ADD Vx, Vy, R107
  | .sub x y => Sys2Proof.Machine.execSub x y s  -- SUB Vx, Vy, R108
  | .shr x y => Sys2Proof.Machine.execShr x y s  -- SHR Vx (Vy), R109
  | .subn x y => Sys2Proof.Machine.execSubn x y s  -- SUBN Vx, Vy, R110
  | .shl x y => Sys2Proof.Machine.execShl x y s  -- SHL Vx (Vy), R111
  | .sneReg x y => Sys2Proof.Machine.execSneReg x y s  -- SNE Vx, Vy, R159
  | .ldI nnn => Sys2Proof.Machine.execLdI nnn s  -- LD I, addr, R121
  | .jpV0 nnn => Sys2Proof.Machine.execJpV0 nnn s  -- JP V0, addr, R155
  | .rnd x nn => Sys2Proof.Machine.execRnd x nn s  -- RND Vx, byte, R113
  | .drw x y n => Sys2Proof.Machine.execDrw x y n s  -- DRW Vx, Vy, nibble, R132
  | .skp x => Sys2Proof.Machine.execSkp x s  -- SKP Vx, R141
  | .sknp x => Sys2Proof.Machine.execSknp x s  -- SKNP Vx, R142
  | .ldVxDt x => Sys2Proof.Machine.execLdVxDt x s  -- LD Vx, DT, R144
  | .ldVxK x => Sys2Proof.Machine.execLdVxK x s  -- LD Vx, K, R143
  | .ldDtVx x => Sys2Proof.Machine.execLdDtVx x s  -- LD DT, Vx, R145
  | .ldStVx x => Sys2Proof.Machine.execLdStVx x s  -- LD ST, Vx, R146
  | .addIVx x => Sys2Proof.Machine.execAddIVx x s  -- ADD I, Vx, R122
  | .ldFVx x => Sys2Proof.Machine.execLdFVx x s  -- LD F, Vx, R123
  | .ldBVx x => Sys2Proof.Machine.execLdBVx x s  -- LD B, Vx, R124
  | .ldMemVx x => Sys2Proof.Machine.execLdMemVx x s  -- LD [I], Vx, R126
  | .ldVxMem x => Sys2Proof.Machine.execLdVxMem x s  -- LD Vx, [I], R127

end Sys2Proof.Machine
end

