-- ==== Sys2Proof/Machine/Events.lean ====
section
/-! DEFINITION. What the other two agents do (00_scope.md R3): the tick step of the timer controller, and
the host's events: a key-down edge, reset, a ROM load. -/

namespace Sys2Proof.Machine

/-- One timer, counted down and clamped at 0 (60_exceptions.md R180). -/
def countDown (b : Byte) : Byte := if b.toNat > 0 then b - 1 else b

/-- The tick step (R180), enabled in `Running` and `AwaitingKey`; in `Halted` it changes nothing (R182). -/
def State.tick (s : State) : State :=
  match s.run with
  | .running => { s with dt := countDown s.dt, st := countDown s.st }
  | .awaitingKey _ => { s with dt := countDown s.dt, st := countDown s.st }
  | .halted _ => s

/-- A key-down edge of key `k`: half 2 of `LD Vx, K` (43_keypad_timers.md R143); in `Running` and in
`Halted` it is ignored and not remembered. -/
def State.keyEdge (s : State) (k : Nibble) : State :=
  match s.run with
  | .awaitingKey x => { (s.setV x (zextNibble k)).advance with run := .running }
  | .running => s
  | .halted _ => s

/-- Reset, in any state (70_reset_and_hazards.md R200). The inputs are not state and live on (log 8). This is the only way out of `Halted` (60_exceptions.md R177). -/
def State.hostReset (s : State) : State := { State.reset with inputs := s.inputs }

/-- What a load writes: the ROM bytes from 0x200 upward, `pc` and `SP` (20_memory.md R63). -/
def State.placeRom (s : State) (rom : List Byte) : State :=
  { s.storeBytes Config.programBase (fun k => rom.getD k 0) rom.length with pc := 0x0200, sp := 0 }

/-- The host's load of a ROM (20_memory.md R63): refused when the ROM is too long, and after the first
instruction step, where it has no meaning. -/
def State.hostLoad (s : State) (rom : List Byte) : Host.Outcome State Fault Refusal :=
  if s.started then .refused .loadAfterStart
  else if rom.length > Config.romMax then .refused (.romTooLong rom.length)
  else .next (s.placeRom rom)

/-- What the interface lets the host and the other agents do (00_scope.md R4): anything at any time, but a
load only before the first instruction step and of a ROM that fits (20_memory.md R63). -/
def State.permits (s : State) : Turn → Bool
  | .instr => true
  | .tick => true
  | .keyEdge _ => true
  | .reset => true
  | .load rom => !s.started && decide (rom.length ≤ Config.romMax)

/-- Whose turn it is: the one the run fixes; else the free one, in which the host keeps to its interface
(log 1). -/
def State.turn (s : State) : Turn :=
  match s.inputs.now.turn with
  | some t => t
  | none => if s.permits (Config.freeTurn s.inputs.count) then Config.freeTurn s.inputs.count else .instr

/-- The state with the inputs of the next turn. -/
def State.moveOn (s : State) : State := s.setInputs s.inputs.moveOn

/-- The end of a turn: the next one has inputs of its own (10_state.md R36). -/
def endTurn : Host.Outcome State Fault Refusal → Host.Outcome State Fault Refusal
  | .next t => .next t.moveOn
  | .fault r => .fault r
  | .refused r => .refused r

end Sys2Proof.Machine
end

