-- ==== Sys2Proof/Machine/Interp.lean ====
section
/-! DEFINITION. The interpreter's turn: the instruction step (44_flow_control.md R150). -/

namespace Sys2Proof.Machine

/-- The opcode at `pc`, high byte first (20_memory.md R52). -/
def State.fetchWord (s : State) : Word := wordOfBytes s.fetchHigh s.fetchLow

/-- The first instruction step since reset ends the time in which a ROM can be loaded (20_memory.md
R63, log 8). -/
def State.begin (s : State) : State := { s with started := true }

/-- The instruction step (R150): the window check, fetch, decode, execute, in the order of R175. -/
def State.instrStep (s : State) : Host.Outcome State Fault Refusal :=
  if s.pcInWindow then
    match decodeWord s.fetchWord with
    | .ok i => exec i s
    | .error _ => .next (s.raiseHalt .decodeFailure s.fetchWord)
  else .next (s.raiseHalt .addressEscape 0)

/-- The interpreter's turn: an instruction step in `Running`; nothing in `AwaitingKey`, where no
instruction step is enabled (43_keypad_timers.md R143, log 4); the fault that reports the halt record in
`Halted` (60_exceptions.md R177, log 5). -/
def State.interpTurn (s : State) : Host.Outcome State Fault Refusal :=
  match s.run with
  | .running => s.begin.instrStep
  | .awaitingKey _ => .next s
  | .halted _ => .fault (.halted s.halt)

/-- One turn of the agent whose turn it is (00_scope.md R3). Of the inputs it reads those of this turn, and
it writes none. -/
def State.takeTurn (s : State) : Host.Outcome State Fault Refusal :=
  match s.turn with
  | .instr => s.interpTurn
  | .tick => .next s.tick
  | .keyEdge k => .next (s.keyEdge k)
  | .reset => .next s.hostReset
  | .load rom => s.hostLoad rom

/-- The state in which the very next turn is the interpreter's and fetches the word `op` at `pc`. -/
def State.placeWord (s : State) (op : Word) : State :=
  ((s.memWrite s.pc.toNat (highByte op)).memWrite (s.pc.toNat + 1) (lowByte op)).setInputs
    (s.inputs.fix fun g => { g with turn := some .instr })

end Sys2Proof.Machine
end

