-- ==== Sys2Proof/Machine/Step.lean ====
section
/-! DEFINITION. One turn of one agent (00_scope.md R3), and where a test puts an instruction. -/

namespace Sys2Proof.Machine

/-- One turn: the agent whose turn it is takes it, and the next turn has inputs of its own. Turns never
overlap (00_scope.md R3). -/
def step (s : State) : Host.Outcome State Fault Refusal := endTurn s.takeTurn

/-- The instruction with the bits `w` (numbered as spec/opcode_table.json numbers them) stored where
the next instruction is fetched, and the next turn given to the interpreter (log 10). -/
def State.withFetchWord (s : State) (nbits w : Nat) : State :=
  s.placeWord (BitVec.ofNat 16 (w % 2 ^ nbits))

end Sys2Proof.Machine
end

