-- ==== Sys2Proof/Safety.lean ====
section
/-! DEFINITION. What counts as a safe run, what a state left behind by an instruction may differ in, and
the invariant every turn keeps. -/

namespace Sys2Proof.Machine

/-- A state is safe when the machine has not halted: for a claim about a program `Halted` is a fault
state, never a successful end (60_exceptions.md R177). -/
def State.safe (s : State) : Bool :=
  match s.run with
  | .running => true
  | .awaitingKey _ => true
  | .halted _ => false

/-- A run of `k` turns that reaches only safe states. -/
def safeRun : Nat → State → Prop
  | 0, s => s.safe = true
  | k + 1, s => s.safe = true ∧ ∃ t, step s = .next t ∧ safeRun k t

/-- The state in which the inputs of the turn to come are the ones given. -/
def State.offer (s : State) (turn : Turn) (draw : Byte) (keys : BitVec 16) : State :=
  s.setInputs (s.inputs.fix fun _ => { turn := some turn, draw := some draw, keys := some keys })

/-- The step relation with its inputs as parameters (10_state.md R36): one turn with this turn, this
random byte and these key levels. -/
def stepWith (turn : Turn) (draw : Byte) (keys : BitVec 16) (s : State) :
    Host.Outcome State Fault Refusal := step (s.offer turn draw keys)

/-- The assumption a claim may make of key events (70_reset_and_hazards.md R215): key-down edges keep coming in
the free schedule. Of ticks the free schedule needs no assumption (60_exceptions.md R181). -/
def KeyEdgesKeepComing : Prop := ∀ n, ∃ m k, n ≤ m ∧ Config.freeTurn m = .keyEdge k

/-- The parts of the state, for saying what an instruction leaves unchanged (00_scope.md R10). -/
inductive Part where
  | v | i | pc | stack | dt | st | mem | run | halt | fb | inputs | started
  deriving DecidableEq, Repr

/-- The part has the same value in both states. Memory is compared byte by byte, through the model's
read of one byte; `stack` is SP and the 16 entries. -/
def Part.same (s t : State) : Part → Prop
  | .v => ∀ x, t.getV x = s.getV x
  | .i => t.i = s.i
  | .pc => t.pc = s.pc
  | .stack => t.sp = s.sp ∧ t.stack = s.stack
  | .dt => t.dt = s.dt
  | .st => t.st = s.st
  | .mem => ∀ a, t.memRead a = s.memRead a
  | .run => t.run = s.run
  | .halt => t.halt = s.halt
  | .fb => t.fb = s.fb
  | .inputs => t.inputs = s.inputs
  | .started => t.started = s.started

/-- Every part outside the list is unchanged from `s` to `t`. -/
def Frame (changed : List Part) (s t : State) : Prop :=
  ∀ p, p ∉ changed → p.same s t

/-- `V[x]` holds `b` and every other data register its old value. -/
def WroteV (x : Nibble) (b : Byte) (s t : State) : Prop :=
  t.getV x = b ∧ ∀ r, r ≠ x → t.getV r = s.getV r

/-- VF holds the flag as a full byte; the destination holds `b` unless it is VF itself, where the flag
wins (40_alu.md R100); every other data register holds its old value. -/
def WroteFlagged (x : Nibble) (b : Byte) (flag : Prop) (s t : State) : Prop :=
  (flag → t.getV vf = 0x01) ∧ (¬ flag → t.getV vf = 0x00) ∧ (x ≠ vf → t.getV x = b) ∧
    ∀ r, r ≠ x → r ≠ vf → t.getV r = s.getV r

/-- In state `s` the next turn is an instruction step that runs `i`. -/
def State.runs (s : State) (i : Instr) : Prop :=
  s.turn = .instr ∧ s.run = .running ∧ s.pcInWindow = true ∧ decodeWord s.fetchWord = .ok i

/-- How many bytes an instruction stores, at `I`, `I + 1`, … (20_memory.md R54). -/
def storeCount : Instr → Nat
  | .ldBVx _ => 3
  | .ldMemVx x => x.toNat + 1
  | .cls | .ret | .sys _ | .jp _ | .call _ | .jpV0 _ | .ldI _ => 0
  | .seImm _ _ | .sneImm _ _ | .seReg _ _ | .sneReg _ _ => 0
  | .ldImm _ _ | .addImm _ _ | .ldReg _ _ | .or _ _ | .and _ _ | .xor _ _ | .rnd _ _ => 0
  | .addReg _ _ | .sub _ _ | .shr _ _ | .subn _ _ | .shl _ _ => 0
  | .drw _ _ _ => 0
  | .skp _ | .sknp _ | .ldVxK _ | .ldVxDt _ | .ldDtVx _ | .ldStVx _ => 0
  | .addIVx _ | .ldFVx _ | .ldVxMem _ => 0

/-- The pixel `(row, col)` lies under a 1 bit of the sprite that `DRW Vx, Vy, n` draws from `s`: row `r`
of the sprite is the byte at `I + r`, its bit `7 - c` is the pixel `c` columns from the left, both
coordinates wrap around (42_display.md R132, R136). -/
def State.covers (s : State) (x y n : Nibble) (row : Fin 32) (col : Fin 64) : Prop :=
  ∃ r c, r < n.toNat ∧ c < 8 ∧ (s.memRead (s.ea r)).getLsbD (7 - c) = true ∧
    row.val = ((s.getV y).toNat + r) % 32 ∧ col.val = ((s.getV x).toNat + c) % 64

/-- The parts an instruction may write, from the pseudocode of its rule. `CALL` and `RET` write the run
state and the halt record when they raise a fatal condition (60_exceptions.md R176). No instruction
writes the inputs (10_state.md R36). -/
def partsOf : Instr → List Part
  | .cls => [.fb, .pc]
  | .ret => [.stack, .pc, .run, .halt]
  | .call _ => [.stack, .pc, .run, .halt]
  | .sys _ | .jp _ | .jpV0 _ => [.pc]
  | .seImm _ _ | .sneImm _ _ | .seReg _ _ | .sneReg _ _ => [.pc]
  | .ldImm _ _ | .addImm _ _ | .ldReg _ _ | .or _ _ | .and _ _ | .xor _ _ => [.v, .pc]
  | .addReg _ _ | .sub _ _ | .shr _ _ | .subn _ _ | .shl _ _ => [.v, .pc]
  | .rnd _ _ => [.v, .pc]
  | .ldI _ | .addIVx _ | .ldFVx _ => [.i, .pc]
  | .drw _ _ _ => [.v, .fb, .pc]
  | .skp _ | .sknp _ => [.pc]
  | .ldVxDt _ | .ldVxMem _ => [.v, .pc]
  | .ldVxK _ => [.run]
  | .ldDtVx _ => [.dt, .pc]
  | .ldStVx _ => [.st, .pc]
  | .ldBVx _ | .ldMemVx _ => [.mem, .pc]

/-- Whether an instruction may write data register `r`: its destination, VF for the six instructions of
10_state.md R22, and V0 to Vx for the range load. `LD Vx, K` writes at its key event only. -/
def mayWriteV (r : Nibble) : Instr → Bool
  | .ldImm x _ | .addImm x _ | .ldReg x _ | .or x _ | .and x _ | .xor x _ | .rnd x _ => r == x
  | .addReg x _ | .sub x _ | .shr x _ | .subn x _ | .shl x _ => r == x || r == vf
  | .drw _ _ _ => r == vf
  | .ldVxDt x => r == x
  | .ldVxMem x => r.toNat ≤ x.toNat
  | .cls | .ret | .sys _ | .jp _ | .call _ | .jpV0 _ | .ldI _ => false
  | .seImm _ _ | .sneImm _ _ | .seReg _ _ | .sneReg _ _ => false
  | .skp _ | .sknp _ | .ldVxK _ | .ldDtVx _ | .ldStVx _ => false
  | .addIVx _ | .ldFVx _ | .ldBVx _ | .ldMemVx _ => false

/-- The halt record and `pc` agree with the run state: a machine that is not halted has the record
(0, 0, 0); a halted one has the code of its cause and the address it stopped at, which is still in `pc`
(10_state.md R30, 60_exceptions.md R176). A machine that waits or has halted has begun. -/
def State.haltAgrees (s : State) : Prop :=
  match s.run with
  | .running => s.halt = HaltRecord.none
  | .awaitingKey _ => s.halt = HaltRecord.none ∧ s.pcInWindow = true ∧ s.started = true
  | .halted cause => s.halt.code = cause.code ∧ s.halt.atPc = s.pc ∧ s.started = true

/-- The invariant every turn keeps. -/
structure State.Inv (s : State) : Prop where
  /-- Memory is in canonical form. -/
  memory : s.mem.wf
  /-- `I[15:12]` is 0 (10_state.md R23). -/
  address : s.i.toNat ≤ 0xFFF
  /-- The largest `pc` any rule can produce (10_state.md R24). -/
  counter : s.pc.toNat ≤ 0x10FE
  /-- Every live stack entry is the address after a CALL in the fetch window (10_state.md R25,
  44_flow_control.md R154). -/
  returns : ∀ k (h : k < 16), k < s.sp.val → 0x202 ≤ s.stack[k].toNat ∧ s.stack[k].toNat ≤ 0x1000
  /-- Halt record, run state and `pc` agree. -/
  agrees : s.haltAgrees

end Sys2Proof.Machine
end

