-- ==== Sys2Proof/Certificates/Slice0/Obligations.lean ====
section
/-! DEFINITION. The statements for the provers. Each docstring says which rule it formalises; where a
statement rests on one of the spec's own decisions (D<n> of 92_eei_decisions.md), on a general-knowledge
passage (G<n> of 93_implementation_defined.md) or on a choice of this model (a log entry), it says so. -/

open Sys2Proof Sys2Proof.Machine

/-! ## Encoding -/

/-- 30_encoding.md R74, R75: decoding the word of a well-formed instruction gives it back, with every
operand at every value. The pairing of patterns and mnemonics rests on G1. -/
def Obligations.DecodeAfterEncode : Prop :=
  ∀ i : Instr, i.wellFormed = true → decodeWord (encode i) = .ok i

/-- The other direction: a word that decodes is the word of the instruction it decodes to, so no two
words share an instruction and no bit is dropped (R74, R79; G1). -/
def Obligations.EncodeAfterDecode : Prop :=
  ∀ (op : Word) (i : Instr), decodeWord op = .ok i → i.wellFormed = true ∧ encode i = op

/-- R74 against R75: the two-level decoder is the mask-and-match table of the opcode map read from the
top, and no two rows but `SYS` with `CLS` and `RET` can select the same word (patterns: G1). -/
def Obligations.DecoderFollowsOpcodeMap : Prop :=
  (∀ op : Word, decodeWord op = lookupOpcode opcodeMap op) ∧
  opcodeMap.length = 35 ∧
  ∀ (j k : Nat) (hj : j < opcodeMap.length) (hk : k < opcodeMap.length) (op : Word), j < k →
    op &&& opcodeMap[j].mask = opcodeMap[j].pattern →
    op &&& opcodeMap[k].mask = opcodeMap[k].pattern → (j = 0 ∨ j = 1) ∧ k = 2

/-- R76: the words without an instruction are exactly the listed ones (derived there from R74). -/
def Obligations.IllegalWordsAreTheListedOnes : Prop :=
  ∀ op : Word, decodeWord op = .error (.decodeFailure op) ↔
    (fieldFam op = 0x5 ∧ fieldN op ≠ 0x0) ∨
    (fieldFam op = 0x8 ∧ fieldN op ∈ [0x8#4, 0x9#4, 0xA#4, 0xB#4, 0xC#4, 0xD#4, 0xF#4]) ∨
    (fieldFam op = 0x9 ∧ fieldN op ≠ 0x0) ∨
    (fieldFam op = 0xE ∧ fieldNN op ∉ [0x9E#8, 0xA1#8]) ∨
    (fieldFam op = 0xF ∧
      fieldNN op ∉ [0x07#8, 0x0A#8, 0x15#8, 0x18#8, 0x1E#8, 0x29#8, 0x33#8, 0x55#8, 0x65#8])

/-- Words written out in the spec and what they stand for: the ROM of 95_test_vectors.md S9 as printed
and as corrected (90_conflicts.md C1), FFFF (S10), and one word of each of the other thirteen families (vectors
T40, T41, T42, T43, T44). -/
def Obligations.SampleWordsDecode : Prop :=
  decodeWord 0x6005 = .ok (.ldImm 0x0 0x05) ∧ decodeWord 0x600A = .ok (.ldImm 0x0 0x0A) ∧
  decodeWord 0x610A = .ok (.ldImm 0x1 0x0A) ∧ decodeWord 0x8014 = .ok (.addReg 0x0 0x1) ∧
  decodeWord 0x00E0 = .ok .cls ∧ decodeWord 0x1234 = .ok (.jp 0x234) ∧
  decodeWord 0x2300 = .ok (.call 0x300) ∧ decodeWord 0x310A = .ok (.seImm 0x1 0x0A) ∧
  decodeWord 0x410B = .ok (.sneImm 0x1 0x0B) ∧ decodeWord 0x5120 = .ok (.seReg 0x1 0x2) ∧
  decodeWord 0x7320 = .ok (.addImm 0x3 0x20) ∧ decodeWord 0x9120 = .ok (.sneReg 0x1 0x2) ∧
  decodeWord 0xA2F0 = .ok (.ldI 0x2F0) ∧ decodeWord 0xB300 = .ok (.jpV0 0x300) ∧
  decodeWord 0xC50F = .ok (.rnd 0x5 0x0F) ∧ decodeWord 0xD015 = .ok (.drw 0x0 0x1 0x5) ∧
  decodeWord 0xE29E = .ok (.skp 0x2) ∧ decodeWord 0xF333 = .ok (.ldBVx 0x3) ∧
  decodeWord 0xFFFF = .error (.decodeFailure 0xFFFF)

/-! ## The instruction step and the fatal conditions -/

/-- 44_flow_control.md R150: in `Running`, an interpreter's turn checks the window, fetches two bytes,
decodes and executes. Around `exec`, `begin` and `endTurn` only touch the model's own fields: `started` is
set before it (log 8), the inputs move on after it (log 1). Big-endian fetch is D1, the window D4, the codes
D25. -/
def Obligations.StepRunsDecodedInstruction : Prop :=
  ∀ s : State, s.turn = .instr → s.run = .running →
    let op := wordOfBytes (s.memRead s.pc.toNat) (s.memRead (s.pc.toNat + 1))
    let u := s.begin
    (s.pc.toNat < 0x200 ∨ 0xFFE < s.pc.toNat →
      step s = endTurn (.next { u with run := .halted .addressEscape, halt := ⟨2, s.pc, 0⟩ })) ∧
    (0x200 ≤ s.pc.toNat ∧ s.pc.toNat ≤ 0xFFE →
      (∀ e, decodeWord op = .error e →
        step s = endTurn (.next { u with run := .halted .decodeFailure, halt := ⟨1, s.pc, op⟩ })) ∧
      (∀ i, decodeWord op = .ok i → step s = endTurn (exec i u)))

/-- 60_exceptions.md R170, R175 (the split into four causes is D25, their order D26): an instruction step
always ends in a next state, and which fatal condition it enters, if any, is decided in this order. -/
def Obligations.FatalConditionsInOrder : Prop :=
  ∀ s : State, s.turn = .instr → s.run = .running →
    ∃ t, step s = .next t ∧
      (t.run = .halted .addressEscape ↔ s.pcInWindow = false) ∧
      (t.run = .halted .decodeFailure ↔
        s.pcInWindow = true ∧ ∃ e, decodeWord s.fetchWord = .error e) ∧
      (t.run = .halted .stackOverflow ↔ s.sp.val = 16 ∧ ∃ nnn, s.runs (.call nnn)) ∧
      (t.run = .halted .stackUnderflow ↔ s.sp.val = 0 ∧ s.runs .ret)

/-- 60_exceptions.md R176 (that a failing instruction has no partial effect is D24): a step that halts
writes the run state and the halt record and nothing else; the recorded opcode is 0 for AddressEscape
and otherwise the word that was fetched. -/
def Obligations.FatalConditionsArePrecise : Prop :=
  ∀ (s t : State) (cause : HaltCause), s.turn = .instr → s.run = .running → step s = .next t →
    t.run = .halted cause →
    t = { s.begin.moveOn with
          run := .halted cause
          halt := ⟨cause.code, s.pc, if cause = .addressEscape then 0 else s.fetchWord⟩ }

/-- 60_exceptions.md R177 (D24): in `Halted` no turn but reset changes anything (`moveOn` only goes on to the
inputs of the next turn), and reset leaves `Halted`. -/
def Obligations.HaltedIsFrozen : Prop :=
  ∀ (s t : State) (cause : HaltCause), s.Inv → s.run = .halted cause → step s = .next t →
    (s.turn ≠ .reset → t = s.moveOn) ∧ (s.turn = .reset → t.run = .running)

/-- The model's choice (log 5), not the spec's: an interpreter's turn in `Halted` is the fault that
reports the halt record. -/
def Obligations.HaltedTurnReportsTheRecord : Prop :=
  ∀ (s : State) (cause : HaltCause), s.turn = .instr → s.run = .halted cause →
    step s = .fault (.halted s.halt)

/-! ## Timers and sound -/

/-- 60_exceptions.md R180: the tick step, in `Running` and `AwaitingKey`; subtraction of natural numbers
stops at 0. That the inputs go on to those of the next turn is the model's choice (log 1), not R180's. -/
def Obligations.TickStep : Prop :=
  ∀ s : State, s.turn = .tick → (s.run = .running ∨ ∃ x, s.run = .awaitingKey x) →
    ∃ t, step s = .next t ∧ t.dt.toNat = s.dt.toNat - 1 ∧ t.st.toNat = s.st.toNat - 1 ∧
      t.inputs = s.inputs.moveOn ∧ Frame [.dt, .st, .inputs] s t

/-- 60_exceptions.md R180 and 10_state.md R28 over any number of ticks in a row, which 60_exceptions.md R181
allows (D20, log 1): each counter is clamped at 0. The hypothesis fixes turns `count` to `count + n - 1` to
be ticks. -/
def Obligations.TicksCountDownToZero : Prop :=
  ∀ (n : Nat) (s : State),
    (∀ k, k < n → (s.inputs.given.getD (s.inputs.count + k) Given.free).turn = some .tick) →
    (s.run = .running ∨ ∃ x, s.run = .awaitingKey x) →
    ∃ t : State, Host.Core.run Sys2Proof.core n s = .next t ∧
      t.dt.toNat = s.dt.toNat - n ∧ t.st.toNat = s.st.toNat - n ∧
      Frame [.dt, .st, .inputs] s t

/-- The fairness of 60_exceptions.md R181 and 70_reset_and_hazards.md R215 (the free schedule has it by its
form, log 1): whatever finite part of its turns a run fixes, as long as it loads no ROM there, the run
comes to a state that has halted, or to one in which the turn is a tick, which lowers DT and ST. -/
def Obligations.TicksKeepComing : Prop :=
  ∀ s : State, (∀ g ∈ s.inputs.given, ∀ rom, g.turn ≠ some (.load rom)) →
    ∃ (n : Nat) (t : State), Host.Core.run Sys2Proof.core n s = .next t ∧
      ((∃ cause, t.run = .halted cause) ∨
        (t.turn = .tick ∧ ∃ u, step t = .next u ∧ u.dt.toNat = t.dt.toNat - 1 ∧
          u.st.toNat = t.st.toNat - 1))

/-- 10_state.md R36 (the form is log 1): the inputs are parameters of the step. No step changes what a run
fixes of them, it goes on to the next turn; any turn, random byte and key levels can be the inputs of a
step; and what a step does depends on the machine and on those three alone. -/
def Obligations.InputsAreParametersOfTheStep : Prop :=
  (∀ s t : State, step s = .next t →
    t.inputs.given = s.inputs.given ∧ t.inputs.count = s.inputs.count + 1) ∧
  (∀ (s : State) (turn : Turn) (draw : Byte) (keys : BitVec 16),
    (s.offer turn draw keys).turn = turn ∧ (s.offer turn draw keys).inputs.draw = draw ∧
    (s.offer turn draw keys).inputs.levels = keys ∧ Frame [.inputs] s (s.offer turn draw keys)) ∧
  (∀ s s' t : State, s' = s.setInputs s'.inputs → s'.turn = s.turn → s'.inputs.draw = s.inputs.draw →
    s'.inputs.levels = s.inputs.levels → step s = .next t →
    step s' = .next (t.setInputs s'.inputs.moveOn)) ∧
  (∀ s t : State, step s = .next t →
    ∃ u, stepWith s.turn s.inputs.draw s.inputs.levels s = .next u ∧ t = u.setInputs t.inputs)

/-- 60_exceptions.md R184 (D31): the sound output is on exactly while ST is not 0; it rises when
`LD ST, Vx` writes a non-zero value and falls when it writes 0 or when a tick takes ST from 1 to 0. -/
def Obligations.SoundFollowsSoundTimer : Prop :=
  (∀ s : State, s.soundActive = true ↔ s.st.toNat ≠ 0) ∧
  (∀ (s t : State) (x : Nibble), exec (.ldStVx x) s = .next t →
    (t.soundActive = true ↔ (s.getV x).toNat ≠ 0)) ∧
  (∀ (s t : State), s.turn = .tick → s.run = .running → step s = .next t →
    (t.soundActive = true ↔ 1 < s.st.toNat))

/-! ## Key wait -/

/-- 43_keypad_timers.md R143, both halves: `LD Vx, K` suspends and changes nothing but the run state; a
key-down edge delivered in the wait completes it; any other edge is dropped. That the destination is kept
in the run state and that edges outside the wait are dropped is D19. -/
def Obligations.KeyWaitCompletesOnEdge : Prop :=
  (∀ (x : Nibble) (s : State), ∃ t, exec (.ldVxK x) s = .next t ∧ t.run = .awaitingKey x ∧
    Frame [.run] s t) ∧
  (∀ (x k : Nibble) (s : State), s.run = .awaitingKey x → s.turn = .keyEdge k →
    ∃ t, step s = .next t ∧ WroteV x (zextNibble k) s t ∧ (zextNibble k).toNat = k.toNat ∧
      t.pc = s.pc + 2 ∧ t.run = .running ∧ t.inputs = s.inputs.moveOn ∧
      Frame [.v, .pc, .run, .inputs] s t) ∧
  (∀ (k : Nibble) (s : State), (∀ x, s.run ≠ .awaitingKey x) → s.turn = .keyEdge k →
    step s = .next s.moveOn)

/-- 60_exceptions.md R188: `AwaitingKey` is entered by `LD Vx, K` only, and left by a key-down edge or
reset only; everything survives the wait but the timers, which keep counting, and the model's own
inputs. -/
def Obligations.WaitStateEnteredAndLeft : Prop :=
  (∀ (s t : State) (x : Nibble), (∀ y, s.run ≠ .awaitingKey y) → step s = .next t →
    t.run = .awaitingKey x → s.runs (.ldVxK x)) ∧
  (∀ (s t : State) (x : Nibble), s.Inv → s.run = .awaitingKey x → step s = .next t →
    ((∃ k, s.turn = .keyEdge k) ∨ s.turn = .reset → t.run = .running) ∧
    ((∀ k, s.turn ≠ .keyEdge k) → s.turn ≠ .reset →
      t.run = .awaitingKey x ∧ Frame [.dt, .st, .inputs] s t ∧
      (s.turn = .tick → t.dt.toNat = s.dt.toNat - 1 ∧ t.st.toNat = s.st.toNat - 1) ∧
      (s.turn ≠ .tick → t.dt = s.dt ∧ t.st = s.st)))

/-- 60_exceptions.md R175 (D26): during the wait a tick and a key-down edge commute. -/
def Obligations.TickAndKeyEdgeCommute : Prop :=
  ∀ (s s' : State) (x k : Nibble), s.run = .awaitingKey x → Frame [.inputs] s s' →
    s.turn = .tick → s.moveOn.turn = .keyEdge k → s'.turn = .keyEdge k → s'.moveOn.turn = .tick →
    ∃ t t' : State, Host.Core.run Sys2Proof.core 2 s = .next t ∧
      Host.Core.run Sys2Proof.core 2 s' = .next t' ∧ t.run = .running ∧ Frame [.inputs] t t'

/-! ## Reset, load, boot -/

/-- 10_state.md R40 (the values of I, DT, ST, STACK, the halt record and FB are D27; the font bytes of
20_memory.md R64 are G3 and D14). -/
def Obligations.ResetValues : Prop :=
  (∀ x, State.reset.getV x = 0) ∧ State.reset.i = 0 ∧ State.reset.pc = 0x0200 ∧
  State.reset.sp.val = 0 ∧ (∀ (k : Nat) (h : k < 16), State.reset.stack[k] = 0) ∧
  State.reset.dt = 0 ∧ State.reset.st = 0 ∧ State.reset.run = .running ∧
  State.reset.halt = ⟨0, 0, 0⟩ ∧
  (∀ row col, Framebuffer.pixel State.reset.fb row col = false) ∧
  (∀ a, a < 0x100 ∨ (0x150 ≤ a ∧ a < 0x1000) → State.reset.memRead a = 0) ∧
  ((List.range 80).map fun k => State.reset.memRead (0x100 + k)) =
    [0xF0, 0x90, 0x90, 0x90, 0xF0, 0x20, 0x60, 0x20, 0x20, 0x70,
     0xF0, 0x10, 0xF0, 0x80, 0xF0, 0xF0, 0x10, 0xF0, 0x10, 0xF0,
     0x90, 0x90, 0xF0, 0x10, 0x10, 0xF0, 0x80, 0xF0, 0x10, 0xF0,
     0xF0, 0x80, 0xF0, 0x90, 0xF0, 0xF0, 0x10, 0x20, 0x40, 0x40] ++
    [0xF0, 0x90, 0xF0, 0x90, 0xF0, 0xF0, 0x90, 0xF0, 0x10, 0xF0,
     0xF0, 0x90, 0xF0, 0x90, 0x90, 0xE0, 0x90, 0xE0, 0x90, 0xE0,
     0xF0, 0x80, 0x80, 0x80, 0xF0, 0xE0, 0x90, 0x90, 0x90, 0xE0,
     0xF0, 0x80, 0xF0, 0x80, 0xF0, 0xF0, 0x80, 0xF0, 0x80, 0x80]

/-- 70_reset_and_hazards.md R200 (D27): reset may be applied in any state and always reaches the state of
R40; only the inputs, which are no state, live on (log 8). -/
def Obligations.ResetFromAnyState : Prop :=
  ∀ s : State, s.turn = .reset → step s = .next { State.reset with inputs := s.inputs.moveOn }

/-- 20_memory.md R63 (the clause on a load after the first step is D28): what a load writes, and when it
is refused. -/
def Obligations.RomLoad : Prop :=
  ∀ (s : State) (rom : List Byte), s.turn = .load rom →
    (s.started = false → rom.length ≤ 3583 →
      ∃ t, step s = .next t ∧
        (∀ (k : Nat) (h : k < rom.length), t.memRead (0x200 + k) = rom[k]) ∧
        (∀ a, a < 0x1000 → (a < 0x200 ∨ 0x200 + rom.length ≤ a) → t.memRead a = s.memRead a) ∧
        t.pc = 0x0200 ∧ t.sp.val = 0 ∧ t.stack = s.stack ∧
        Frame [.mem, .pc, .stack, .inputs] s t) ∧
    (s.started = false → 3583 < rom.length → step s = .refused (.romTooLong rom.length)) ∧
    (s.started = true → step s = .refused .loadAfterStart)

/-- 70_reset_and_hazards.md R201, R212 (derived there from R151 and R172): zero memory runs as `SYS 0` up
to 0xFFE and the step after that halts with AddressEscape. The hypothesis on the turns is one here: no
tick and no host event comes in between. -/
def Obligations.ZeroMemoryRunsOffTheEnd : Prop :=
  ∀ (n : Nat) (s : State), s.run = .running →
    (∀ k, k ≤ n → (s.inputs.given.getD (s.inputs.count + k) Given.free).turn = some .instr) →
    0x200 ≤ s.pc.toNat → s.pc.toNat + 2 * n = 0x1000 →
    (∀ a, s.pc.toNat ≤ a → a ≤ 0xFFF → s.memRead a = 0) →
    ∃ t u : State, Host.Core.run Sys2Proof.core n s = .next t ∧ t.pc = 0x1000 ∧
      Frame [.pc, .inputs, .started] s t ∧
      step t = .next u ∧ u.run = .halted .addressEscape ∧ u.halt = ⟨2, 0x1000, 0⟩ ∧
      Frame [.run, .halt, .inputs, .started] t u

/-! ## Memory -/

/-- 20_memory.md R55 (the wrap modulo 4096 is D11): read after write, at every natural address. -/
def Obligations.ReadAfterWrite : Prop :=
  ∀ (s : State) (a b : Nat) (w : Byte),
    (b % 4096 = a % 4096 → (s.memWrite a w).memRead b = w) ∧
    (b % 4096 ≠ a % 4096 → (s.memWrite a w).memRead b = s.memRead b) ∧
    Frame [.mem] s (s.memWrite a w)

/-- The canonical form makes equal memories equal data (model's own form of 20_memory.md R50). -/
def Obligations.EqualReadsMeanEqualMemory : Prop :=
  ∀ m m' : Memory, m.wf → m'.wf → (∀ a, a < 4096 → m.read a = m'.read a) → m = m'

/-- 20_memory.md R60 (derived there): a store is seen by the very next fetch, with no flush and no delay;
here `LD [I], Vx` over the instruction that follows it. -/
def Obligations.StoreSeenByNextFetch : Prop :=
  ∀ (s : State) (x : Nibble) (k : Nat), s.i.toNat + k = s.pc.toNat + 2 → k + 1 ≤ x.toNat →
    s.pc.toNat ≤ 0xFFC →
    ∃ t, exec (.ldMemVx x) s = .next t ∧
      t.fetchWord = wordOfBytes (s.getV (BitVec.ofNat 4 k)) (s.getV (BitVec.ofNat 4 (k + 1)))

/-! ## Register load, arithmetic, logic, shift, random -/

/-- 40_alu.md R101. -/
def Obligations.LoadImmediate : Prop :=
  ∀ (x : Nibble) (nn : Byte) (s : State), ∃ t, exec (.ldImm x nn) s = .next t ∧
    WroteV x nn s t ∧ t.pc = s.pc + 2 ∧ Frame [.v, .pc] s t

/-- 40_alu.md R102 to R106 (semantics G1, VF unchanged D8): the register instructions without a flag. -/
def Obligations.FlaglessRegisterInstructions : Prop :=
  ∀ (x y : Nibble) (nn : Byte) (s : State),
    (∃ t, exec (.addImm x nn) s = .next t ∧
      WroteV x (BitVec.ofNat 8 (((s.getV x).toNat + nn.toNat) % 256)) s t ∧ t.pc = s.pc + 2 ∧
      Frame [.v, .pc] s t) ∧
    (∃ t, exec (.ldReg x y) s = .next t ∧ WroteV x (s.getV y) s t ∧ t.pc = s.pc + 2 ∧
      Frame [.v, .pc] s t) ∧
    (∃ t, exec (.or x y) s = .next t ∧ WroteV x (s.getV x ||| s.getV y) s t ∧ t.pc = s.pc + 2 ∧
      Frame [.v, .pc] s t) ∧
    (∃ t, exec (.and x y) s = .next t ∧ WroteV x (s.getV x &&& s.getV y) s t ∧ t.pc = s.pc + 2 ∧
      Frame [.v, .pc] s t) ∧
    (∃ t, exec (.xor x y) s = .next t ∧ WroteV x (s.getV x ^^^ s.getV y) s t ∧ t.pc = s.pc + 2 ∧
      Frame [.v, .pc] s t)

/-- 40_alu.md R107: the sum modulo 256 and the carry; that the flag is written last, so that it wins when
`x` is VF, is D6 (R100). -/
def Obligations.AddSetsCarry : Prop :=
  ∀ (x y : Nibble) (s : State), ∃ t, exec (.addReg x y) s = .next t ∧
    WroteFlagged x (BitVec.ofNat 8 (((s.getV x).toNat + (s.getV y).toNat) % 256))
      ((s.getV x).toNat + (s.getV y).toNat > 255) s t ∧
    t.pc = s.pc + 2 ∧ Frame [.v, .pc] s t

/-- 40_alu.md R108: the difference modulo 256 and the not-borrow, the flag last (D6). -/
def Obligations.SubSetsNotBorrow : Prop :=
  ∀ (x y : Nibble) (s : State), ∃ t, exec (.sub x y) s = .next t ∧
    WroteFlagged x (BitVec.ofNat 8 (((s.getV x).toNat + 256 - (s.getV y).toNat) % 256))
      ((s.getV x).toNat ≥ (s.getV y).toNat) s t ∧
    t.pc = s.pc + 2 ∧ Frame [.v, .pc] s t

/-- 40_alu.md R110: the reversed subtraction (G4), the flag last (D6). -/
def Obligations.SubnSetsNotBorrow : Prop :=
  ∀ (x y : Nibble) (s : State), ∃ t, exec (.subn x y) s = .next t ∧
    WroteFlagged x (BitVec.ofNat 8 (((s.getV y).toNat + 256 - (s.getV x).toNat) % 256))
      ((s.getV y).toNat ≥ (s.getV x).toNat) s t ∧
    t.pc = s.pc + 2 ∧ Frame [.v, .pc] s t

/-- 40_alu.md R109, R111 (in place on `V[x]` is D7): the shifts by one, VF the bit shifted out whatever
VF held, written last (D6); `y` has no effect (R79). -/
def Obligations.ShiftsSetBitOut : Prop :=
  ∀ (x y : Nibble) (s : State),
    (∃ t, exec (.shr x y) s = .next t ∧
      WroteFlagged x (BitVec.ofNat 8 ((s.getV x).toNat / 2)) ((s.getV x).toNat % 2 = 1) s t ∧
      t.pc = s.pc + 2 ∧ Frame [.v, .pc] s t) ∧
    (∃ t, exec (.shl x y) s = .next t ∧
      WroteFlagged x (BitVec.ofNat 8 ((s.getV x).toNat * 2 % 256)) ((s.getV x).toNat ≥ 128) s t ∧
      t.pc = s.pc + 2 ∧ Frame [.v, .pc] s t)

/-- 40_alu.md R113 (the draw is the free value of D21, log 2): the byte of this turn ANDed with the mask,
the one the run fixes or else the free one. The last clause: the step that runs `RND` goes on to the
byte of the next turn, so that no draw is used twice. -/
def Obligations.RandomDrawIsFresh : Prop :=
  ∀ (x : Nibble) (nn : Byte) (s : State), ∃ t r, exec (.rnd x nn) s = .next t ∧
    WroteV x (r &&& nn) s t ∧ t.pc = s.pc + 2 ∧ Frame [.v, .pc] s t ∧
    (∀ b, s.inputs.now.draw = some b → r = b) ∧
    (s.inputs.now.draw = none → r = Config.randDraw s.inputs.count) ∧
    (∀ u, s.runs (.rnd x nn) → step s = .next u → u.inputs.count = s.inputs.count + 1)

/-! ## Address register and memory -/

/-- 41_index_memory.md R121 (G1), R122 (reduction modulo 4096, VF not written: D9), R123 (low nibble and
placement: D13). -/
def Obligations.AddressRegisterInstructions : Prop :=
  ∀ (nnn : Addr) (x : Nibble) (s : State),
    (∃ t, exec (.ldI nnn) s = .next t ∧ t.i.toNat = nnn.toNat ∧ t.pc = s.pc + 2 ∧
      Frame [.i, .pc] s t) ∧
    (∃ t, exec (.addIVx x) s = .next t ∧ t.i.toNat = (s.i.toNat + (s.getV x).toNat) % 4096 ∧
      t.pc = s.pc + 2 ∧ Frame [.i, .pc] s t) ∧
    (∃ t, exec (.ldFVx x) s = .next t ∧ t.i.toNat = 0x100 + 5 * ((s.getV x).toNat % 16) ∧
      t.pc = s.pc + 2 ∧ Frame [.i, .pc] s t)

/-- 41_index_memory.md R124: the three decimal digits at `I`, `I + 1`, `I + 2`, modulo 4096 by the store
itself (D11), I unchanged (D12); every other byte unchanged. -/
def Obligations.BcdStoresThreeDigits : Prop :=
  ∀ (x : Nibble) (s : State), ∃ t, exec (.ldBVx x) s = .next t ∧
    (t.memRead (s.ea 0)).toNat = (s.getV x).toNat / 100 ∧
    (t.memRead (s.ea 1)).toNat = (s.getV x).toNat / 10 % 10 ∧
    (t.memRead (s.ea 2)).toNat = (s.getV x).toNat % 10 ∧
    (∀ a, (∀ k, k < 3 → a % 4096 ≠ s.ea k % 4096) → t.memRead a = s.memRead a) ∧
    t.pc = s.pc + 2 ∧ Frame [.mem, .pc] s t

/-- 41_index_memory.md R126: `V[0]` to `V[x]` at `I`, `I + 1`, …, modulo 4096 (D11), I unchanged (D12);
every other byte unchanged. -/
def Obligations.RangeStore : Prop :=
  ∀ (x : Nibble) (s : State), ∃ t, exec (.ldMemVx x) s = .next t ∧
    (∀ r : Nibble, r.toNat ≤ x.toNat → t.memRead (s.ea r.toNat) = s.getV r) ∧
    (∀ a, (∀ k, k ≤ x.toNat → a % 4096 ≠ s.ea k % 4096) → t.memRead a = s.memRead a) ∧
    t.pc = s.pc + 2 ∧ Frame [.mem, .pc] s t

/-- 41_index_memory.md R127: `V[0]` to `V[x]` from `I`, `I + 1`, …, modulo 4096 (D11), I unchanged (D12);
the other registers unchanged. -/
def Obligations.RangeLoad : Prop :=
  ∀ (x : Nibble) (s : State), ∃ t, exec (.ldVxMem x) s = .next t ∧
    (∀ r : Nibble, r.toNat ≤ x.toNat → t.getV r = s.memRead (s.ea r.toNat)) ∧
    (∀ r : Nibble, x.toNat < r.toNat → t.getV r = s.getV r) ∧
    t.pc = s.pc + 2 ∧ Frame [.v, .pc] s t

/-- 41_index_memory.md R125 (that I is not advanced is D12), 95_test_vectors.md S8: storing V0 to Vx and
loading them back, with memory and I as the store left them, restores them, whatever the registers held
in between. -/
def Obligations.RangeRoundTrip : Prop :=
  ∀ (x : Nibble) (s t t' u : State), exec (.ldMemVx x) s = .next t →
    t'.i = t.i → (∀ a, t'.memRead a = t.memRead a) → exec (.ldVxMem x) t' = .next u →
    u.i = s.i ∧ ∀ r : Nibble, r.toNat ≤ x.toNat → u.getV r = s.getV r

/-! ## Display -/

/-- 42_display.md R131, with the property it quotes: the first draw to the cleared screen, whatever its
sprite and position, leaves VF = 0 (also R133 (a)). -/
def Obligations.ClearScreen : Prop :=
  ∀ s : State, ∃ t, exec .cls s = .next t ∧
    (∀ row col, Framebuffer.pixel t.fb row col = false) ∧ t.pc = s.pc + 2 ∧ Frame [.fb, .pc] s t ∧
    ∀ (x y n : Nibble) (t' u : State), t'.fb = t.fb → exec (.drw x y n) t' = .next u → u.getV vf = 0

/-- 42_display.md R136 (wraparound D15, bit order D16): one `draw_row` flips exactly the pixels under the
1 bits of the byte and replies whether one of them was set. -/
def Obligations.DrawRowFlipsPixels : Prop :=
  ∀ (f : Framebuffer) (bits : Byte) (x y : Nat),
    let under : Fin 64 → Prop := fun col =>
      ∃ c, c < 8 ∧ bits.getLsbD (7 - c) = true ∧ col.val = (x + c) % 64
    (∀ row col, Framebuffer.pixel (f.drawRow bits x y).1 row col = true ↔
      (Framebuffer.pixel f row col = true ↔ ¬ (row.val = y % 32 ∧ under col))) ∧
    ((f.drawRow bits x y).2 = true ↔
      ∃ row col, row.val = y % 32 ∧ under col ∧ Framebuffer.pixel f row col = true)

/-- 42_display.md R132 (D15, D16): `DRW` flips exactly the pixels its sprite covers and sets VF to 1 iff
one of them was set, else to 0, also when there is no row. -/
def Obligations.DrawFlipsCoveredPixels : Prop :=
  ∀ (x y n : Nibble) (s : State), ∃ t, exec (.drw x y n) s = .next t ∧
    (∀ row col, Framebuffer.pixel t.fb row col = true ↔
      (Framebuffer.pixel s.fb row col = true ↔ ¬ s.covers x y n row col)) ∧
    ((∃ row col, s.covers x y n row col ∧ Framebuffer.pixel s.fb row col = true) →
      WroteV vf 0x01 s t) ∧
    ((¬ ∃ row col, s.covers x y n row col ∧ Framebuffer.pixel s.fb row col = true) →
      WroteV vf 0x00 s t) ∧
    t.pc = s.pc + 2 ∧ Frame [.v, .fb, .pc] s t

/-- 42_display.md R133 (b) (derived there; 90_conflicts.md C7): a second draw of the same sprite at the
same position restores the framebuffer, and reports a collision iff a covered pixel was clear before the
first. -/
def Obligations.DrawTwiceRestores : Prop :=
  ∀ (x y n : Nibble) (s t t' u : State), exec (.drw x y n) s = .next t →
    t'.fb = t.fb → t'.getV x = s.getV x → t'.getV y = s.getV y → t'.i = s.i →
    (∀ a, t'.memRead a = s.memRead a) → exec (.drw x y n) t' = .next u →
    u.fb = s.fb ∧
    (u.getV vf = 1 ↔ ∃ row col, s.covers x y n row col ∧ Framebuffer.pixel s.fb row col = false)

/-! ## Keypad and timer registers -/

/-- 43_keypad_timers.md R141, R142 (low nibble D18; the levels are the free input of D35, log 3): the
skip on the level, in this turn, of the key in the low nibble of `V[x]`: the level the run fixes or else
the free one. -/
def Obligations.KeySkipsSampleTheKey : Prop :=
  ∀ (x : Nibble) (s : State), ∃ levels : BitVec 16,
    (∀ l, s.inputs.now.keys = some l → levels = l) ∧
    (s.inputs.now.keys = none → levels = Config.keyLevels s.inputs.count) ∧
    (∃ t, exec (.skp x) s = .next t ∧ Frame [.pc] s t ∧
      t.pc = if levels.getLsbD ((s.getV x).toNat % 16) then s.pc + 4 else s.pc + 2) ∧
    (∃ t, exec (.sknp x) s = .next t ∧ Frame [.pc] s t ∧
      t.pc = if levels.getLsbD ((s.getV x).toNat % 16) then s.pc + 2 else s.pc + 4)

/-- 43_keypad_timers.md R144 to R146 (G1). -/
def Obligations.TimerRegisterInstructions : Prop :=
  ∀ (x : Nibble) (s : State),
    (∃ t, exec (.ldVxDt x) s = .next t ∧ WroteV x s.dt s t ∧ t.pc = s.pc + 2 ∧ Frame [.v, .pc] s t) ∧
    (∃ t, exec (.ldDtVx x) s = .next t ∧ t.dt = s.getV x ∧ t.pc = s.pc + 2 ∧ Frame [.dt, .pc] s t) ∧
    (∃ t, exec (.ldStVx x) s = .next t ∧ t.st = s.getV x ∧ t.pc = s.pc + 2 ∧ Frame [.st, .pc] s t)

/-! ## Control flow -/

/-- 44_flow_control.md R151. -/
def Obligations.SysIsNoOperation : Prop :=
  ∀ (nnn : Addr) (s : State), ∃ t, exec (.sys nnn) s = .next t ∧ t.pc = s.pc + 2 ∧ Frame [.pc] s t

/-- 44_flow_control.md R153: the target is not checked when written; a target outside the window is
caught by the next step, with `at_pc = nnn` (window and check at the fetch: D4; code 2: D25). -/
def Obligations.JumpIsCheckedByTheNextFetch : Prop :=
  ∀ (nnn : Addr) (s : State), ∃ t, exec (.jp nnn) s = .next t ∧ t.pc.toNat = nnn.toNat ∧
    Frame [.pc] s t ∧
    (s.run = .running → s.turn = .instr → (nnn.toNat < 0x200 ∨ nnn.toNat = 0xFFF) →
      ∃ u, step t = .next u ∧ u.run = .halted .addressEscape ∧ u.halt.code = 2 ∧
        u.halt.atPc.toNat = nnn.toNat ∧ u.halt.opcode = 0 ∧
        Frame [.run, .halt, .inputs, .started] t u)

/-- 44_flow_control.md R154: the push of `pc + 2`, or StackOverflow with nothing pushed. The opcode
recorded is the word of this `CALL`, the only word that decodes to it (log 11). Depth 16 is D3, the
dedicated array D2, code 3 is D25. -/
def Obligations.CallPushesReturnAddress : Prop :=
  ∀ (nnn : Addr) (s : State),
    (s.sp.val < 16 → ∃ t, exec (.call nnn) s = .next t ∧ t.sp.val = s.sp.val + 1 ∧
      (∀ (k : Nat) (h : k < 16), t.stack[k] = if k = s.sp.val then s.pc + 2 else s.stack[k]) ∧
      t.pc.toNat = nnn.toNat ∧ Frame [.stack, .pc] s t) ∧
    (s.sp.val = 16 → ∃ t, exec (.call nnn) s = .next t ∧ t.run = .halted .stackOverflow ∧
      t.halt.code = 3 ∧ t.halt.atPc = s.pc ∧ t.halt.opcode.toNat = 0x2000 + nnn.toNat ∧
      Frame [.run, .halt] s t)

/-- 44_flow_control.md R152: the pop, with no further + 2, or StackUnderflow (array D2, code 4 D25). -/
def Obligations.ReturnPopsReturnAddress : Prop :=
  ∀ s : State,
    (∀ (k : Nat) (h : k < 16), s.sp.val = k + 1 → ∃ t, exec .ret s = .next t ∧ t.sp.val = k ∧
      t.stack = s.stack ∧ t.pc = s.stack[k] ∧ Frame [.stack, .pc] s t) ∧
    (s.sp.val = 0 → ∃ t, exec .ret s = .next t ∧ t.run = .halted .stackUnderflow ∧
      t.halt = ⟨4, s.pc, 0x00EE⟩ ∧ Frame [.run, .halt] s t)

/-- 44_flow_control.md R152, R154, R161: a return from a state with the stack as the call left it lands
behind the call, with the old depth. -/
def Obligations.ReturnUndoesCall : Prop :=
  ∀ (nnn : Addr) (s t t' : State), s.sp.val < 16 → exec (.call nnn) s = .next t →
    t'.sp = t.sp → t'.stack = t.stack →
    ∃ u, exec .ret t' = .next u ∧ u.pc = s.pc + 2 ∧ u.sp = s.sp

/-- 44_flow_control.md R155 (G1, D30): the sum is not reduced modulo 4096 and cannot overflow 16 bits. -/
def Obligations.JumpV0AddsV0 : Prop :=
  ∀ (nnn : Addr) (s : State), ∃ t, exec (.jpV0 nnn) s = .next t ∧
    t.pc.toNat = nnn.toNat + (s.getV 0).toNat ∧ Frame [.pc] s t

/-- 44_flow_control.md R156 to R159 (the comparisons are G1): the four conditional skips. -/
def Obligations.ConditionalSkips : Prop :=
  ∀ (x y : Nibble) (nn : Byte) (s : State),
    (∃ t, exec (.seImm x nn) s = .next t ∧ Frame [.pc] s t ∧
      t.pc = if (s.getV x).toNat = nn.toNat then s.pc + 4 else s.pc + 2) ∧
    (∃ t, exec (.sneImm x nn) s = .next t ∧ Frame [.pc] s t ∧
      t.pc = if (s.getV x).toNat = nn.toNat then s.pc + 2 else s.pc + 4) ∧
    (∃ t, exec (.seReg x y) s = .next t ∧ Frame [.pc] s t ∧
      t.pc = if (s.getV x).toNat = (s.getV y).toNat then s.pc + 4 else s.pc + 2) ∧
    (∃ t, exec (.sneReg x y) s = .next t ∧ Frame [.pc] s t ∧
      t.pc = if (s.getV x).toNat = (s.getV y).toNat then s.pc + 2 else s.pc + 4)

/-! ## Whole-machine rules -/

/-- 00_scope.md R10: every instruction leaves alone every part its rule does not name, every data
register it does not name, every byte outside the ones it stores, and every stack entry but the one a
`CALL` pushes. -/
def Obligations.FrameRule : Prop :=
  ∀ (i : Instr) (s t : State), exec i s = .next t →
    Frame (partsOf i) s t ∧
    (∀ r, mayWriteV r i = false → t.getV r = s.getV r) ∧
    (∀ a, (∀ k, k < storeCount i → a % 4096 ≠ s.ea k % 4096) → t.memRead a = s.memRead a) ∧
    (∀ (k : Nat) (h : k < 16), (¬ ∃ nnn, i = .call nnn) ∨ k ≠ s.sp.val → t.stack[k] = s.stack[k])

/-- 10_state.md R22 (that these six are all is D8): the six flag instructions leave 0x00 or 0x01 in VF,
and no other instruction changes VF unless it names VF as its destination. -/
def Obligations.OnlySixInstructionsWriteTheFlag : Prop :=
  ∀ (i : Instr) (s t : State), exec i s = .next t →
    ((∃ x y, i = .addReg x y ∨ i = .sub x y ∨ i = .shr x y ∨ i = .subn x y ∨ i = .shl x y) ∨
        (∃ x y n, i = .drw x y n) → t.getV vf = 0x00 ∨ t.getV vf = 0x01) ∧
    (t.getV vf ≠ s.getV vf →
      (∃ x y, i = .addReg x y ∨ i = .sub x y ∨ i = .shr x y ∨ i = .subn x y ∨ i = .shl x y) ∨
      (∃ x y n, i = .drw x y n) ∨
      (∃ nn y, i = .ldImm vf nn ∨ i = .addImm vf nn ∨ i = .rnd vf nn ∨ i = .ldReg vf y ∨
        i = .or vf y ∨ i = .and vf y ∨ i = .xor vf y ∨ i = .ldVxDt vf ∨ i = .ldVxMem vf))

/-- 10_state.md R23, R25, R26, R27, 42_display.md R134, over every turn: I changes only by `LD I`,
`ADD I`, `LD F` and reset; SP and the stack only by `CALL`, `RET`, a load and reset; DT and ST only by
their instruction, a tick and reset; the framebuffer only by `CLS`, `DRW` and reset. -/
def Obligations.RegistersChangeOnlyByTheirInstructions : Prop :=
  ∀ s t : State, step s = .next t → s.turn ≠ .reset →
    (t.i ≠ s.i → ∃ x nnn, s.runs (.ldI nnn) ∨ s.runs (.addIVx x) ∨ s.runs (.ldFVx x)) ∧
    (t.sp ≠ s.sp ∨ t.stack ≠ s.stack →
      (∃ nnn, s.runs (.call nnn)) ∨ s.runs .ret ∨ ∃ rom, s.turn = .load rom) ∧
    (t.dt ≠ s.dt → s.turn = .tick ∨ ∃ x, s.runs (.ldDtVx x)) ∧
    (t.st ≠ s.st → s.turn = .tick ∨ ∃ x, s.runs (.ldStVx x)) ∧
    (t.fb ≠ s.fb → s.runs .cls ∨ ∃ x y n, s.runs (.drw x y n))

/-- 10_state.md R27: no instruction reads ST. Two states that differ in ST alone go to states that differ
in ST alone. -/
def Obligations.SoundTimerIsNeverRead : Prop :=
  ∀ (i : Instr) (s t : State) (b : Byte), exec i s = .next t →
    ∃ u, exec i (s.setSt b) = .next u ∧ u.setSt 0 = t.setSt 0

/-- 10_state.md R25, R40 (unobservable reset values: D27): a dead stack entry is never read. Two states
that agree on everything but dead entries stay so over every turn. -/
def Obligations.DeadStackEntriesAreUnobservable : Prop :=
  ∀ (s s' t : State), s' = { s with stack := s'.stack } →
    (∀ (k : Nat) (h : k < 16), k < s.sp.val → s'.stack[k] = s.stack[k]) → step s = .next t →
    ∃ t', step s' = .next t' ∧ t' = { t with stack := t'.stack } ∧
      ∀ (k : Nat) (h : k < 16), k < t.sp.val → t'.stack[k] = t.stack[k]

/-- The invariant of the model, over every turn from every state: memory canonical, I below 0x1000 (D10),
`pc` at most 0x10FE (10_state.md R24), live stack entries in 0x202..0x1000, and the halt record agreeing
with the run state (10_state.md R30, 60_exceptions.md R176). -/
def Obligations.EveryTurnKeepsInv : Prop :=
  ∀ s t : State, s.Inv → step s = .next t → t.Inv

/-- The invariant holds right after reset. -/
def Obligations.ResetMeetsInv : Prop := State.reset.Inv
end

