-- ==== Sys2Proof/Laws/Decode.lean ====
section
/-! SUPPORT. The fields of a word put together from its fields, and the bytes of a word. -/

namespace Sys2Proof

/-- Appending is shifting and adding. -/
theorem toNat_append_add {v w : Nat} (a : BitVec v) (b : BitVec w) :
    (a ++ b).toNat = a.toNat * 2 ^ w + b.toNat := by
  rw [BitVec.toNat_append, ← Nat.shiftLeft_add_eq_or_of_lt b.isLt, Nat.shiftLeft_eq]

theorem formatXYN_toNat (f x y n : Nibble) :
    (formatXYN f x y n).toNat = f.toNat * 4096 + x.toNat * 256 + y.toNat * 16 + n.toNat := by
  have e : (formatXYN f x y n).toNat = (f ++ x ++ y ++ n).toNat := rfl
  rw [e, toNat_append_add, toNat_append_add, toNat_append_add]; omega

theorem formatXNN_toNat (f x : Nibble) (nn : Byte) :
    (formatXNN f x nn).toNat = f.toNat * 4096 + x.toNat * 256 + nn.toNat := by
  have e : (formatXNN f x nn).toNat = (f ++ x ++ nn).toNat := rfl
  rw [e, toNat_append_add, toNat_append_add]; omega

theorem formatNNN_toNat (f : Nibble) (nnn : Addr) :
    (formatNNN f nnn).toNat = f.toNat * 4096 + nnn.toNat := by
  have e : (formatNNN f nnn).toNat = (f ++ nnn).toNat := rfl
  rw [e, toNat_append_add]; omega

theorem fieldFam_toNat (op : Word) : (fieldFam op).toNat = op.toNat / 4096 := by
  have := op.isLt
  simp [fieldFam, BitVec.extractLsb'_toNat, Nat.shiftRight_eq_div_pow]; omega

theorem fieldX_toNat (op : Word) : (fieldX op).toNat = op.toNat / 256 % 16 := by
  simp [fieldX, BitVec.extractLsb'_toNat, Nat.shiftRight_eq_div_pow]

theorem fieldY_toNat (op : Word) : (fieldY op).toNat = op.toNat / 16 % 16 := by
  simp [fieldY, BitVec.extractLsb'_toNat, Nat.shiftRight_eq_div_pow]

theorem fieldN_toNat (op : Word) : (fieldN op).toNat = op.toNat % 16 := by
  simp [fieldN, BitVec.extractLsb'_toNat]

theorem fieldNN_toNat (op : Word) : (fieldNN op).toNat = op.toNat % 256 := by
  simp [fieldNN, BitVec.extractLsb'_toNat]

theorem fieldNNN_toNat (op : Word) : (fieldNNN op).toNat = op.toNat % 4096 := by
  simp [fieldNNN, BitVec.extractLsb'_toNat]

/-! ### Fields of each format (R72) -/

section
variable (f x y n : Nibble) (nn : Byte) (nnn : Addr)

@[simp] theorem fam_formatXYN : fieldFam (formatXYN f x y n) = f := by
  apply BitVec.eq_of_toNat_eq
  have := f.isLt; have := x.isLt; have := y.isLt; have := n.isLt
  rw [fieldFam_toNat, formatXYN_toNat]; omega

@[simp] theorem x_formatXYN : fieldX (formatXYN f x y n) = x := by
  apply BitVec.eq_of_toNat_eq
  have := f.isLt; have := x.isLt; have := y.isLt; have := n.isLt
  rw [fieldX_toNat, formatXYN_toNat]; omega

@[simp] theorem y_formatXYN : fieldY (formatXYN f x y n) = y := by
  apply BitVec.eq_of_toNat_eq
  have := f.isLt; have := x.isLt; have := y.isLt; have := n.isLt
  rw [fieldY_toNat, formatXYN_toNat]; omega

@[simp] theorem n_formatXYN : fieldN (formatXYN f x y n) = n := by
  apply BitVec.eq_of_toNat_eq
  have := f.isLt; have := x.isLt; have := y.isLt; have := n.isLt
  rw [fieldN_toNat, formatXYN_toNat]; omega

@[simp] theorem fam_formatXNN : fieldFam (formatXNN f x nn) = f := by
  apply BitVec.eq_of_toNat_eq
  have := f.isLt; have := x.isLt; have := nn.isLt
  rw [fieldFam_toNat, formatXNN_toNat]; omega

@[simp] theorem x_formatXNN : fieldX (formatXNN f x nn) = x := by
  apply BitVec.eq_of_toNat_eq
  have := f.isLt; have := x.isLt; have := nn.isLt
  rw [fieldX_toNat, formatXNN_toNat]; omega

@[simp] theorem nn_formatXNN : fieldNN (formatXNN f x nn) = nn := by
  apply BitVec.eq_of_toNat_eq
  have := f.isLt; have := x.isLt; have := nn.isLt
  rw [fieldNN_toNat, formatXNN_toNat]; omega

@[simp] theorem fam_formatNNN : fieldFam (formatNNN f nnn) = f := by
  apply BitVec.eq_of_toNat_eq
  have := f.isLt; have := nnn.isLt
  rw [fieldFam_toNat, formatNNN_toNat]; omega

@[simp] theorem nnn_formatNNN : fieldNNN (formatNNN f nnn) = nnn := by
  apply BitVec.eq_of_toNat_eq
  have := f.isLt; have := nnn.isLt
  rw [fieldNNN_toNat, formatNNN_toNat]; omega

end

theorem wordOfBytes_toNat (hi lo : Byte) : (wordOfBytes hi lo).toNat = hi.toNat * 256 + lo.toNat := by
  have e : (wordOfBytes hi lo).toNat = (hi ++ lo).toNat := rfl
  rw [e, toNat_append_add]; omega

/-- The two bytes of a word, put together again. -/
@[simp] theorem wordOfBytes_bytes (op : Word) : wordOfBytes (highByte op) (lowByte op) = op := by
  apply BitVec.eq_of_toNat_eq
  have := op.isLt
  rw [wordOfBytes_toNat]
  simp [highByte, lowByte, BitVec.extractLsb'_toNat, Nat.shiftRight_eq_div_pow]; omega

end Sys2Proof
end

