-- ==== Sys2Proof/Laws/State.lean ====
section
/-! SUPPORT. One lemma per field per update of the state, true by rfl, so that no later proof unfolds a
record update; and the derived updates written as the plain ones they are made of. -/

namespace Sys2Proof.Machine

/-! ### Derived updates -/

@[simp] theorem State.advance_eq (s : State) : s.advance = s.setPc (s.pc + 2) := rfl
@[simp] theorem State.setFlag_eq (s : State) (b : Bool) : s.setFlag b = s.setV vf (flagByte b) := rfl
@[simp] theorem State.skipIf_eq (s : State) (c : Bool) :
    s.skipIf c = s.setPc (if c then s.pc + 4 else s.pc + 2) := rfl
@[simp] theorem State.moveOn_eq (s : State) : s.moveOn = s.setInputs s.inputs.moveOn := rfl
theorem State.drop_sp_val (s : State) : s.drop.sp.val = s.sp.val - 1 := rfl

/-! ### `memWrite` -/

@[simp] theorem State.memWrite_v (s : State) (a : Nat) (w : Byte) : (s.memWrite a w).v = s.v := rfl
@[simp] theorem State.memWrite_i (s : State) (a : Nat) (w : Byte) : (s.memWrite a w).i = s.i := rfl
@[simp] theorem State.memWrite_pc (s : State) (a : Nat) (w : Byte) : (s.memWrite a w).pc = s.pc := rfl
@[simp] theorem State.memWrite_sp (s : State) (a : Nat) (w : Byte) : (s.memWrite a w).sp = s.sp := rfl
@[simp] theorem State.memWrite_stack (s : State) (a : Nat) (w : Byte) : (s.memWrite a w).stack = s.stack := rfl
@[simp] theorem State.memWrite_dt (s : State) (a : Nat) (w : Byte) : (s.memWrite a w).dt = s.dt := rfl
@[simp] theorem State.memWrite_st (s : State) (a : Nat) (w : Byte) : (s.memWrite a w).st = s.st := rfl
@[simp] theorem State.memWrite_mem (s : State) (a : Nat) (w : Byte) : (s.memWrite a w).mem = s.mem.write (a % Config.memSize) w := rfl
@[simp] theorem State.memWrite_run (s : State) (a : Nat) (w : Byte) : (s.memWrite a w).run = s.run := rfl
@[simp] theorem State.memWrite_halt (s : State) (a : Nat) (w : Byte) : (s.memWrite a w).halt = s.halt := rfl
@[simp] theorem State.memWrite_fb (s : State) (a : Nat) (w : Byte) : (s.memWrite a w).fb = s.fb := rfl
@[simp] theorem State.memWrite_inputs (s : State) (a : Nat) (w : Byte) : (s.memWrite a w).inputs = s.inputs := rfl
@[simp] theorem State.memWrite_started (s : State) (a : Nat) (w : Byte) : (s.memWrite a w).started = s.started := rfl
@[simp] theorem State.memWrite_getV (s : State) (a : Nat) (w : Byte) (r : Nibble) : (s.memWrite a w).getV r = s.getV r := rfl

/-! ### `setV` -/

@[simp] theorem State.setV_i (s : State) (x : Nibble) (b : Byte) : (s.setV x b).i = s.i := rfl
@[simp] theorem State.setV_pc (s : State) (x : Nibble) (b : Byte) : (s.setV x b).pc = s.pc := rfl
@[simp] theorem State.setV_sp (s : State) (x : Nibble) (b : Byte) : (s.setV x b).sp = s.sp := rfl
@[simp] theorem State.setV_stack (s : State) (x : Nibble) (b : Byte) : (s.setV x b).stack = s.stack := rfl
@[simp] theorem State.setV_dt (s : State) (x : Nibble) (b : Byte) : (s.setV x b).dt = s.dt := rfl
@[simp] theorem State.setV_st (s : State) (x : Nibble) (b : Byte) : (s.setV x b).st = s.st := rfl
@[simp] theorem State.setV_mem (s : State) (x : Nibble) (b : Byte) : (s.setV x b).mem = s.mem := rfl
@[simp] theorem State.setV_run (s : State) (x : Nibble) (b : Byte) : (s.setV x b).run = s.run := rfl
@[simp] theorem State.setV_halt (s : State) (x : Nibble) (b : Byte) : (s.setV x b).halt = s.halt := rfl
@[simp] theorem State.setV_fb (s : State) (x : Nibble) (b : Byte) : (s.setV x b).fb = s.fb := rfl
@[simp] theorem State.setV_inputs (s : State) (x : Nibble) (b : Byte) : (s.setV x b).inputs = s.inputs := rfl
@[simp] theorem State.setV_started (s : State) (x : Nibble) (b : Byte) : (s.setV x b).started = s.started := rfl
@[simp] theorem State.setV_memRead (s : State) (x : Nibble) (b : Byte) (addr : Nat) : (s.setV x b).memRead addr = s.memRead addr := rfl

/-! ### `setI` -/

@[simp] theorem State.setI_v (s : State) (w : Word) : (s.setI w).v = s.v := rfl
@[simp] theorem State.setI_i (s : State) (w : Word) : (s.setI w).i = w &&& 0x0FFF := rfl
@[simp] theorem State.setI_pc (s : State) (w : Word) : (s.setI w).pc = s.pc := rfl
@[simp] theorem State.setI_sp (s : State) (w : Word) : (s.setI w).sp = s.sp := rfl
@[simp] theorem State.setI_stack (s : State) (w : Word) : (s.setI w).stack = s.stack := rfl
@[simp] theorem State.setI_dt (s : State) (w : Word) : (s.setI w).dt = s.dt := rfl
@[simp] theorem State.setI_st (s : State) (w : Word) : (s.setI w).st = s.st := rfl
@[simp] theorem State.setI_mem (s : State) (w : Word) : (s.setI w).mem = s.mem := rfl
@[simp] theorem State.setI_run (s : State) (w : Word) : (s.setI w).run = s.run := rfl
@[simp] theorem State.setI_halt (s : State) (w : Word) : (s.setI w).halt = s.halt := rfl
@[simp] theorem State.setI_fb (s : State) (w : Word) : (s.setI w).fb = s.fb := rfl
@[simp] theorem State.setI_inputs (s : State) (w : Word) : (s.setI w).inputs = s.inputs := rfl
@[simp] theorem State.setI_started (s : State) (w : Word) : (s.setI w).started = s.started := rfl
@[simp] theorem State.setI_getV (s : State) (w : Word) (r : Nibble) : (s.setI w).getV r = s.getV r := rfl
@[simp] theorem State.setI_memRead (s : State) (w : Word) (addr : Nat) : (s.setI w).memRead addr = s.memRead addr := rfl

/-! ### `setPc` -/

@[simp] theorem State.setPc_v (s : State) (w : Word) : (s.setPc w).v = s.v := rfl
@[simp] theorem State.setPc_i (s : State) (w : Word) : (s.setPc w).i = s.i := rfl
@[simp] theorem State.setPc_pc (s : State) (w : Word) : (s.setPc w).pc = w := rfl
@[simp] theorem State.setPc_sp (s : State) (w : Word) : (s.setPc w).sp = s.sp := rfl
@[simp] theorem State.setPc_stack (s : State) (w : Word) : (s.setPc w).stack = s.stack := rfl
@[simp] theorem State.setPc_dt (s : State) (w : Word) : (s.setPc w).dt = s.dt := rfl
@[simp] theorem State.setPc_st (s : State) (w : Word) : (s.setPc w).st = s.st := rfl
@[simp] theorem State.setPc_mem (s : State) (w : Word) : (s.setPc w).mem = s.mem := rfl
@[simp] theorem State.setPc_run (s : State) (w : Word) : (s.setPc w).run = s.run := rfl
@[simp] theorem State.setPc_halt (s : State) (w : Word) : (s.setPc w).halt = s.halt := rfl
@[simp] theorem State.setPc_fb (s : State) (w : Word) : (s.setPc w).fb = s.fb := rfl
@[simp] theorem State.setPc_inputs (s : State) (w : Word) : (s.setPc w).inputs = s.inputs := rfl
@[simp] theorem State.setPc_started (s : State) (w : Word) : (s.setPc w).started = s.started := rfl
@[simp] theorem State.setPc_getV (s : State) (w : Word) (r : Nibble) : (s.setPc w).getV r = s.getV r := rfl
@[simp] theorem State.setPc_memRead (s : State) (w : Word) (addr : Nat) : (s.setPc w).memRead addr = s.memRead addr := rfl

/-! ### `setDt` -/

@[simp] theorem State.setDt_v (s : State) (b : Byte) : (s.setDt b).v = s.v := rfl
@[simp] theorem State.setDt_i (s : State) (b : Byte) : (s.setDt b).i = s.i := rfl
@[simp] theorem State.setDt_pc (s : State) (b : Byte) : (s.setDt b).pc = s.pc := rfl
@[simp] theorem State.setDt_sp (s : State) (b : Byte) : (s.setDt b).sp = s.sp := rfl
@[simp] theorem State.setDt_stack (s : State) (b : Byte) : (s.setDt b).stack = s.stack := rfl
@[simp] theorem State.setDt_dt (s : State) (b : Byte) : (s.setDt b).dt = b := rfl
@[simp] theorem State.setDt_st (s : State) (b : Byte) : (s.setDt b).st = s.st := rfl
@[simp] theorem State.setDt_mem (s : State) (b : Byte) : (s.setDt b).mem = s.mem := rfl
@[simp] theorem State.setDt_run (s : State) (b : Byte) : (s.setDt b).run = s.run := rfl
@[simp] theorem State.setDt_halt (s : State) (b : Byte) : (s.setDt b).halt = s.halt := rfl
@[simp] theorem State.setDt_fb (s : State) (b : Byte) : (s.setDt b).fb = s.fb := rfl
@[simp] theorem State.setDt_inputs (s : State) (b : Byte) : (s.setDt b).inputs = s.inputs := rfl
@[simp] theorem State.setDt_started (s : State) (b : Byte) : (s.setDt b).started = s.started := rfl
@[simp] theorem State.setDt_getV (s : State) (b : Byte) (r : Nibble) : (s.setDt b).getV r = s.getV r := rfl
@[simp] theorem State.setDt_memRead (s : State) (b : Byte) (addr : Nat) : (s.setDt b).memRead addr = s.memRead addr := rfl

/-! ### `setSt` -/

@[simp] theorem State.setSt_v (s : State) (b : Byte) : (s.setSt b).v = s.v := rfl
@[simp] theorem State.setSt_i (s : State) (b : Byte) : (s.setSt b).i = s.i := rfl
@[simp] theorem State.setSt_pc (s : State) (b : Byte) : (s.setSt b).pc = s.pc := rfl
@[simp] theorem State.setSt_sp (s : State) (b : Byte) : (s.setSt b).sp = s.sp := rfl
@[simp] theorem State.setSt_stack (s : State) (b : Byte) : (s.setSt b).stack = s.stack := rfl
@[simp] theorem State.setSt_dt (s : State) (b : Byte) : (s.setSt b).dt = s.dt := rfl
@[simp] theorem State.setSt_st (s : State) (b : Byte) : (s.setSt b).st = b := rfl
@[simp] theorem State.setSt_mem (s : State) (b : Byte) : (s.setSt b).mem = s.mem := rfl
@[simp] theorem State.setSt_run (s : State) (b : Byte) : (s.setSt b).run = s.run := rfl
@[simp] theorem State.setSt_halt (s : State) (b : Byte) : (s.setSt b).halt = s.halt := rfl
@[simp] theorem State.setSt_fb (s : State) (b : Byte) : (s.setSt b).fb = s.fb := rfl
@[simp] theorem State.setSt_inputs (s : State) (b : Byte) : (s.setSt b).inputs = s.inputs := rfl
@[simp] theorem State.setSt_started (s : State) (b : Byte) : (s.setSt b).started = s.started := rfl
@[simp] theorem State.setSt_getV (s : State) (b : Byte) (r : Nibble) : (s.setSt b).getV r = s.getV r := rfl
@[simp] theorem State.setSt_memRead (s : State) (b : Byte) (addr : Nat) : (s.setSt b).memRead addr = s.memRead addr := rfl

/-! ### `push` -/

@[simp] theorem State.push_v (s : State) (w : Word) (h : s.sp.val < 16) : (s.push w h).v = s.v := rfl
@[simp] theorem State.push_i (s : State) (w : Word) (h : s.sp.val < 16) : (s.push w h).i = s.i := rfl
@[simp] theorem State.push_pc (s : State) (w : Word) (h : s.sp.val < 16) : (s.push w h).pc = s.pc := rfl
@[simp] theorem State.push_sp (s : State) (w : Word) (h : s.sp.val < 16) : (s.push w h).sp = ⟨s.sp.val + 1, by omega⟩ := rfl
@[simp] theorem State.push_stack (s : State) (w : Word) (h : s.sp.val < 16) : (s.push w h).stack = s.stack.set s.sp.val w h := rfl
@[simp] theorem State.push_dt (s : State) (w : Word) (h : s.sp.val < 16) : (s.push w h).dt = s.dt := rfl
@[simp] theorem State.push_st (s : State) (w : Word) (h : s.sp.val < 16) : (s.push w h).st = s.st := rfl
@[simp] theorem State.push_mem (s : State) (w : Word) (h : s.sp.val < 16) : (s.push w h).mem = s.mem := rfl
@[simp] theorem State.push_run (s : State) (w : Word) (h : s.sp.val < 16) : (s.push w h).run = s.run := rfl
@[simp] theorem State.push_halt (s : State) (w : Word) (h : s.sp.val < 16) : (s.push w h).halt = s.halt := rfl
@[simp] theorem State.push_fb (s : State) (w : Word) (h : s.sp.val < 16) : (s.push w h).fb = s.fb := rfl
@[simp] theorem State.push_inputs (s : State) (w : Word) (h : s.sp.val < 16) : (s.push w h).inputs = s.inputs := rfl
@[simp] theorem State.push_started (s : State) (w : Word) (h : s.sp.val < 16) : (s.push w h).started = s.started := rfl
@[simp] theorem State.push_getV (s : State) (w : Word) (h : s.sp.val < 16) (r : Nibble) : (s.push w h).getV r = s.getV r := rfl
@[simp] theorem State.push_memRead (s : State) (w : Word) (h : s.sp.val < 16) (addr : Nat) : (s.push w h).memRead addr = s.memRead addr := rfl

/-! ### `drop` -/

@[simp] theorem State.drop_v (s : State) : (s.drop).v = s.v := rfl
@[simp] theorem State.drop_i (s : State) : (s.drop).i = s.i := rfl
@[simp] theorem State.drop_pc (s : State) : (s.drop).pc = s.pc := rfl
@[simp] theorem State.drop_stack (s : State) : (s.drop).stack = s.stack := rfl
@[simp] theorem State.drop_dt (s : State) : (s.drop).dt = s.dt := rfl
@[simp] theorem State.drop_st (s : State) : (s.drop).st = s.st := rfl
@[simp] theorem State.drop_mem (s : State) : (s.drop).mem = s.mem := rfl
@[simp] theorem State.drop_run (s : State) : (s.drop).run = s.run := rfl
@[simp] theorem State.drop_halt (s : State) : (s.drop).halt = s.halt := rfl
@[simp] theorem State.drop_fb (s : State) : (s.drop).fb = s.fb := rfl
@[simp] theorem State.drop_inputs (s : State) : (s.drop).inputs = s.inputs := rfl
@[simp] theorem State.drop_started (s : State) : (s.drop).started = s.started := rfl
@[simp] theorem State.drop_getV (s : State) (r : Nibble) : (s.drop).getV r = s.getV r := rfl
@[simp] theorem State.drop_memRead (s : State) (addr : Nat) : (s.drop).memRead addr = s.memRead addr := rfl

/-! ### `setFb` -/

@[simp] theorem State.setFb_v (s : State) (f : Framebuffer) : (s.setFb f).v = s.v := rfl
@[simp] theorem State.setFb_i (s : State) (f : Framebuffer) : (s.setFb f).i = s.i := rfl
@[simp] theorem State.setFb_pc (s : State) (f : Framebuffer) : (s.setFb f).pc = s.pc := rfl
@[simp] theorem State.setFb_sp (s : State) (f : Framebuffer) : (s.setFb f).sp = s.sp := rfl
@[simp] theorem State.setFb_stack (s : State) (f : Framebuffer) : (s.setFb f).stack = s.stack := rfl
@[simp] theorem State.setFb_dt (s : State) (f : Framebuffer) : (s.setFb f).dt = s.dt := rfl
@[simp] theorem State.setFb_st (s : State) (f : Framebuffer) : (s.setFb f).st = s.st := rfl
@[simp] theorem State.setFb_mem (s : State) (f : Framebuffer) : (s.setFb f).mem = s.mem := rfl
@[simp] theorem State.setFb_run (s : State) (f : Framebuffer) : (s.setFb f).run = s.run := rfl
@[simp] theorem State.setFb_halt (s : State) (f : Framebuffer) : (s.setFb f).halt = s.halt := rfl
@[simp] theorem State.setFb_fb (s : State) (f : Framebuffer) : (s.setFb f).fb = f := rfl
@[simp] theorem State.setFb_inputs (s : State) (f : Framebuffer) : (s.setFb f).inputs = s.inputs := rfl
@[simp] theorem State.setFb_started (s : State) (f : Framebuffer) : (s.setFb f).started = s.started := rfl
@[simp] theorem State.setFb_getV (s : State) (f : Framebuffer) (r : Nibble) : (s.setFb f).getV r = s.getV r := rfl
@[simp] theorem State.setFb_memRead (s : State) (f : Framebuffer) (addr : Nat) : (s.setFb f).memRead addr = s.memRead addr := rfl

/-! ### `raiseHalt` -/

@[simp] theorem State.raiseHalt_v (s : State) (c : HaltCause) (op : Word) : (s.raiseHalt c op).v = s.v := rfl
@[simp] theorem State.raiseHalt_i (s : State) (c : HaltCause) (op : Word) : (s.raiseHalt c op).i = s.i := rfl
@[simp] theorem State.raiseHalt_pc (s : State) (c : HaltCause) (op : Word) : (s.raiseHalt c op).pc = s.pc := rfl
@[simp] theorem State.raiseHalt_sp (s : State) (c : HaltCause) (op : Word) : (s.raiseHalt c op).sp = s.sp := rfl
@[simp] theorem State.raiseHalt_stack (s : State) (c : HaltCause) (op : Word) : (s.raiseHalt c op).stack = s.stack := rfl
@[simp] theorem State.raiseHalt_dt (s : State) (c : HaltCause) (op : Word) : (s.raiseHalt c op).dt = s.dt := rfl
@[simp] theorem State.raiseHalt_st (s : State) (c : HaltCause) (op : Word) : (s.raiseHalt c op).st = s.st := rfl
@[simp] theorem State.raiseHalt_mem (s : State) (c : HaltCause) (op : Word) : (s.raiseHalt c op).mem = s.mem := rfl
@[simp] theorem State.raiseHalt_run (s : State) (c : HaltCause) (op : Word) : (s.raiseHalt c op).run = .halted c := rfl
@[simp] theorem State.raiseHalt_halt (s : State) (c : HaltCause) (op : Word) : (s.raiseHalt c op).halt = ⟨c.code, s.pc, op⟩ := rfl
@[simp] theorem State.raiseHalt_fb (s : State) (c : HaltCause) (op : Word) : (s.raiseHalt c op).fb = s.fb := rfl
@[simp] theorem State.raiseHalt_inputs (s : State) (c : HaltCause) (op : Word) : (s.raiseHalt c op).inputs = s.inputs := rfl
@[simp] theorem State.raiseHalt_started (s : State) (c : HaltCause) (op : Word) : (s.raiseHalt c op).started = s.started := rfl
@[simp] theorem State.raiseHalt_getV (s : State) (c : HaltCause) (op : Word) (r : Nibble) : (s.raiseHalt c op).getV r = s.getV r := rfl
@[simp] theorem State.raiseHalt_memRead (s : State) (c : HaltCause) (op : Word) (addr : Nat) : (s.raiseHalt c op).memRead addr = s.memRead addr := rfl

/-! ### `awaitKey` -/

@[simp] theorem State.awaitKey_v (s : State) (x : Nibble) : (s.awaitKey x).v = s.v := rfl
@[simp] theorem State.awaitKey_i (s : State) (x : Nibble) : (s.awaitKey x).i = s.i := rfl
@[simp] theorem State.awaitKey_pc (s : State) (x : Nibble) : (s.awaitKey x).pc = s.pc := rfl
@[simp] theorem State.awaitKey_sp (s : State) (x : Nibble) : (s.awaitKey x).sp = s.sp := rfl
@[simp] theorem State.awaitKey_stack (s : State) (x : Nibble) : (s.awaitKey x).stack = s.stack := rfl
@[simp] theorem State.awaitKey_dt (s : State) (x : Nibble) : (s.awaitKey x).dt = s.dt := rfl
@[simp] theorem State.awaitKey_st (s : State) (x : Nibble) : (s.awaitKey x).st = s.st := rfl
@[simp] theorem State.awaitKey_mem (s : State) (x : Nibble) : (s.awaitKey x).mem = s.mem := rfl
@[simp] theorem State.awaitKey_run (s : State) (x : Nibble) : (s.awaitKey x).run = .awaitingKey x := rfl
@[simp] theorem State.awaitKey_halt (s : State) (x : Nibble) : (s.awaitKey x).halt = s.halt := rfl
@[simp] theorem State.awaitKey_fb (s : State) (x : Nibble) : (s.awaitKey x).fb = s.fb := rfl
@[simp] theorem State.awaitKey_inputs (s : State) (x : Nibble) : (s.awaitKey x).inputs = s.inputs := rfl
@[simp] theorem State.awaitKey_started (s : State) (x : Nibble) : (s.awaitKey x).started = s.started := rfl
@[simp] theorem State.awaitKey_getV (s : State) (x : Nibble) (r : Nibble) : (s.awaitKey x).getV r = s.getV r := rfl
@[simp] theorem State.awaitKey_memRead (s : State) (x : Nibble) (addr : Nat) : (s.awaitKey x).memRead addr = s.memRead addr := rfl

/-! ### `setInputs` -/

@[simp] theorem State.setInputs_v (s : State) (n : Inputs) : (s.setInputs n).v = s.v := rfl
@[simp] theorem State.setInputs_i (s : State) (n : Inputs) : (s.setInputs n).i = s.i := rfl
@[simp] theorem State.setInputs_pc (s : State) (n : Inputs) : (s.setInputs n).pc = s.pc := rfl
@[simp] theorem State.setInputs_sp (s : State) (n : Inputs) : (s.setInputs n).sp = s.sp := rfl
@[simp] theorem State.setInputs_stack (s : State) (n : Inputs) : (s.setInputs n).stack = s.stack := rfl
@[simp] theorem State.setInputs_dt (s : State) (n : Inputs) : (s.setInputs n).dt = s.dt := rfl
@[simp] theorem State.setInputs_st (s : State) (n : Inputs) : (s.setInputs n).st = s.st := rfl
@[simp] theorem State.setInputs_mem (s : State) (n : Inputs) : (s.setInputs n).mem = s.mem := rfl
@[simp] theorem State.setInputs_run (s : State) (n : Inputs) : (s.setInputs n).run = s.run := rfl
@[simp] theorem State.setInputs_halt (s : State) (n : Inputs) : (s.setInputs n).halt = s.halt := rfl
@[simp] theorem State.setInputs_fb (s : State) (n : Inputs) : (s.setInputs n).fb = s.fb := rfl
@[simp] theorem State.setInputs_inputs (s : State) (n : Inputs) : (s.setInputs n).inputs = n := rfl
@[simp] theorem State.setInputs_started (s : State) (n : Inputs) : (s.setInputs n).started = s.started := rfl
@[simp] theorem State.setInputs_getV (s : State) (n : Inputs) (r : Nibble) : (s.setInputs n).getV r = s.getV r := rfl
@[simp] theorem State.setInputs_memRead (s : State) (n : Inputs) (addr : Nat) : (s.setInputs n).memRead addr = s.memRead addr := rfl

/-! ### `begin` -/

@[simp] theorem State.begin_v (s : State) : (s.begin).v = s.v := rfl
@[simp] theorem State.begin_i (s : State) : (s.begin).i = s.i := rfl
@[simp] theorem State.begin_pc (s : State) : (s.begin).pc = s.pc := rfl
@[simp] theorem State.begin_sp (s : State) : (s.begin).sp = s.sp := rfl
@[simp] theorem State.begin_stack (s : State) : (s.begin).stack = s.stack := rfl
@[simp] theorem State.begin_dt (s : State) : (s.begin).dt = s.dt := rfl
@[simp] theorem State.begin_st (s : State) : (s.begin).st = s.st := rfl
@[simp] theorem State.begin_mem (s : State) : (s.begin).mem = s.mem := rfl
@[simp] theorem State.begin_run (s : State) : (s.begin).run = s.run := rfl
@[simp] theorem State.begin_halt (s : State) : (s.begin).halt = s.halt := rfl
@[simp] theorem State.begin_fb (s : State) : (s.begin).fb = s.fb := rfl
@[simp] theorem State.begin_inputs (s : State) : (s.begin).inputs = s.inputs := rfl
@[simp] theorem State.begin_started (s : State) : (s.begin).started = true := rfl
@[simp] theorem State.begin_getV (s : State) (r : Nibble) : (s.begin).getV r = s.getV r := rfl
@[simp] theorem State.begin_memRead (s : State) (addr : Nat) : (s.begin).memRead addr = s.memRead addr := rfl

end Sys2Proof.Machine
end

