-- ==== Sys2Proof/Laws/Framebuffer.lean ====
section
/-! SUPPORT. The reference collaborator: what one pixel is after a flip, a row and a sprite. -/

namespace Sys2Proof.Machine

/-- Two framebuffers with the same pixels are the same. -/
theorem Framebuffer.ext_pixel {f g : Framebuffer}
    (h : ∀ row col, Framebuffer.pixel f row col = Framebuffer.pixel g row col) : f = g := by
  refine Vector.ext fun k hk => ?_
  refine BitVec.eq_of_getLsbD_eq fun j hj => ?_
  exact h ⟨k, hk⟩ ⟨j, hj⟩

@[simp] theorem Framebuffer.pixel_clear (row : Fin 32) (col : Fin 64) :
    Framebuffer.pixel Framebuffer.clear row col = false := by
  simp [Framebuffer.pixel, Framebuffer.clear]

/-- The mask of one column has that one bit. -/
theorem getLsbD_columnMask (col c : Fin 64) : (1#64 <<< col.val).getLsbD c.val = decide (c = col) := by
  have hc := c.isLt
  have hcol := col.isLt
  rw [BitVec.getLsbD_shiftLeft, BitVec.getLsbD_one, Bool.eq_iff_iff]
  simp only [Bool.and_eq_true, decide_eq_true_eq, Bool.not_eq_true', decide_eq_false_iff_not, Fin.ext_iff]
  omega

/-- A flip changes its pixel and no other. -/
theorem Framebuffer.pixel_flip (f : Framebuffer) (row r : Fin 32) (col c : Fin 64) :
    Framebuffer.pixel (Framebuffer.flip f row col) r c =
      (Framebuffer.pixel f r c ^^ (decide (r = row) && decide (c = col))) := by
  simp only [Framebuffer.pixel, Framebuffer.flip, Vector.getElem_set]
  by_cases hr : row = r
  · subst hr
    simp only [↓reduceIte, BitVec.getLsbD_xor, getLsbD_columnMask, decide_true, Bool.true_and]
  · have : row.val ≠ r.val := fun h => hr (Fin.ext h)
    simp [this, Ne.symm hr]

/-- The pixel `(row, col)` lies under a 1 bit of the first `n` columns of the sprite row `bits` drawn at
column `x` (42_display.md R136). -/
def underBits (bits : Byte) (x n : Nat) (col : Fin 64) : Bool :=
  (List.range n).any fun c => bits.getLsbD (7 - c) && decide (col = wrapCol (x + c))

theorem underBits_succ (bits : Byte) (x n : Nat) (col : Fin 64) :
    underBits bits x (n + 1) col =
      (underBits bits x n col || (bits.getLsbD (7 - n) && decide (col = wrapCol (x + n)))) := by
  simp [underBits, List.range_succ]

/-- Columns of one sprite row never fold onto one another: 8 < 64. -/
theorem underBits_fresh (bits : Byte) (x n : Nat) (hn : n < 8) :
    underBits bits x n (wrapCol (x + n)) = false := by
  simp only [underBits, List.any_eq_false, List.mem_range, Bool.and_eq_true, decide_eq_true_eq, not_and]
  intro c hc _ h
  have := congrArg Fin.val h
  simp only [wrapCol, Config.displayW] at this
  omega

/-- One row, pixel by pixel and reply, after the first `n` columns. -/
theorem Framebuffer.drawRow_prefix (f : Framebuffer) (bits : Byte) (x : Nat) (row : Fin 32) (n : Nat)
    (hn : n ≤ 8) :
    let res := (List.range n).foldl (Framebuffer.drawPixel bits x row) (f, false)
    (∀ r c, Framebuffer.pixel res.1 r c =
      (Framebuffer.pixel f r c ^^ (decide (r = row) && underBits bits x n c))) ∧
    res.2 = decide (∃ c, underBits bits x n c = true ∧ Framebuffer.pixel f row c = true) := by
  induction n with
  | zero => simp [underBits]
  | succ n ih =>
    obtain ⟨hp, hc⟩ := ih (by omega)
    have fresh := underBits_fresh bits x n (by omega)
    rw [List.range_succ, List.foldl_append]
    simp only [List.foldl_cons, List.foldl_nil, Framebuffer.drawPixel]
    by_cases hb : bits.getLsbD (7 - n) = true
    · simp only [hb, ↓reduceIte]
      refine ⟨fun r c => ?_, ?_⟩
      · rw [Framebuffer.pixel_flip, hp, underBits_succ, hb]
        by_cases h : c = wrapCol (x + n)
        · subst h; simp [fresh]
        · simp [h]
      · rw [hc, hp, fresh]
        simp only [Bool.and_false, Bool.xor_false, underBits_succ, hb, Bool.true_and,
          Bool.or_eq_true, decide_eq_true_eq]
        rw [Bool.eq_iff_iff]
        simp only [Bool.or_eq_true, decide_eq_true_eq]
        constructor
        · rintro (⟨c, h1, h2⟩ | h)
          · exact ⟨c, .inl h1, h2⟩
          · exact ⟨_, .inr rfl, h⟩
        · rintro ⟨c, h1 | rfl, h2⟩
          · exact .inl ⟨c, h1, h2⟩
          · exact .inr h2
    · simp only [hb, Bool.false_eq_true, ↓reduceIte, underBits_succ, Bool.false_and, Bool.or_false]
      exact ⟨hp, hc⟩

/-- All `draw_row` can do. -/
theorem Framebuffer.drawRow_spec (f : Framebuffer) (bits : Byte) (x y : Nat) :
    (∀ r c, Framebuffer.pixel (Framebuffer.drawRow f bits x y).1 r c =
      (Framebuffer.pixel f r c ^^ (decide (r = wrapRow y) && underBits bits x 8 c))) ∧
    (Framebuffer.drawRow f bits x y).2 =
      decide (∃ c, underBits bits x 8 c = true ∧ Framebuffer.pixel f (wrapRow y) c = true) :=
  Framebuffer.drawRow_prefix f bits x (wrapRow y) 8 (Nat.le_refl 8)

/-- The pixel `(row, col)` lies under a 1 bit of the first `n` rows of a sprite drawn at `(px, py)`. -/
def underSprite (sprite : Nat → Byte) (px py n : Nat) (row : Fin 32) (col : Fin 64) : Bool :=
  (List.range n).any fun r => decide (row = wrapRow (py + r)) && underBits (sprite r) px 8 col

theorem underSprite_succ (sprite : Nat → Byte) (px py n : Nat) (row : Fin 32) (col : Fin 64) :
    underSprite sprite px py (n + 1) row col =
      (underSprite sprite px py n row col ||
        (decide (row = wrapRow (py + n)) && underBits (sprite n) px 8 col)) := by
  simp [underSprite, List.range_succ]

/-- Rows of one sprite never fold onto one another: at most 15 < 32. -/
theorem underSprite_fresh (sprite : Nat → Byte) (px py n : Nat) (hn : n < 32) (col : Fin 64) :
    underSprite sprite px py n (wrapRow (py + n)) col = false := by
  simp only [underSprite, List.any_eq_false, List.mem_range, Bool.and_eq_true, decide_eq_true_eq, not_and]
  intro c hc h
  have := congrArg Fin.val h
  simp only [wrapRow, Config.displayH] at this
  omega

/-- All a sprite of at most 32 rows can do. -/
theorem Framebuffer.drawSprite_spec (f : Framebuffer) (sprite : Nat → Byte) (px py n : Nat)
    (hn : n ≤ 32) :
    (∀ r c, Framebuffer.pixel (Framebuffer.drawSprite f sprite px py n).1 r c =
      (Framebuffer.pixel f r c ^^ underSprite sprite px py n r c)) ∧
    (Framebuffer.drawSprite f sprite px py n).2 =
      decide (∃ r c, underSprite sprite px py n r c = true ∧ Framebuffer.pixel f r c = true) := by
  induction n with
  | zero => simp [underSprite, Framebuffer.drawSprite]
  | succ n ih =>
    obtain ⟨hp, hc⟩ := ih (by omega)
    have fresh := underSprite_fresh sprite px py n (by omega)
    have e : Framebuffer.drawSprite f sprite px py (n + 1) =
        ((Framebuffer.drawRow (Framebuffer.drawSprite f sprite px py n).1 (sprite n) px (py + n)).1,
          (Framebuffer.drawSprite f sprite px py n).2 ||
          (Framebuffer.drawRow (Framebuffer.drawSprite f sprite px py n).1 (sprite n) px (py + n)).2) := by
      simp [Framebuffer.drawSprite, List.range_succ]
    obtain ⟨rp, rc⟩ :=
      Framebuffer.drawRow_spec (Framebuffer.drawSprite f sprite px py n).1 (sprite n) px (py + n)
    rw [e]
    refine ⟨fun r c => ?_, ?_⟩
    · simp only [rp, hp, underSprite_succ]
      by_cases h : r = wrapRow (py + n)
      · subst h; simp [fresh]
      · simp [h]
    · simp only [rc, hc, hp, fresh, Bool.xor_false, underSprite_succ]
      rw [Bool.eq_iff_iff]
      simp only [Bool.or_eq_true, decide_eq_true_eq, Bool.and_eq_true]
      constructor
      · rintro (⟨r, c, h1, h2⟩ | ⟨c, h1, h2⟩)
        · exact ⟨r, c, .inl h1, h2⟩
        · exact ⟨_, c, .inr ⟨rfl, h1⟩, h2⟩
      · rintro ⟨r, c, h1 | ⟨rfl, h1⟩, h2⟩
        · exact .inl ⟨r, c, h1, h2⟩
        · exact .inr ⟨c, h1, h2⟩

end Sys2Proof.Machine
end

