-- ==== Sys2Proof/Laws/Memory.lean ====
section
/-! SUPPORT. Memory: what a read sees after a write, and that every operation keeps the canonical form. -/

namespace Sys2Proof.Machine

theorem Memory.read_erase (m : Memory) (a b : Nat) :
    Memory.read (m.erase a) b = if b = a then Memory.initialByte b else Memory.read m b := by
  induction m with
  | nil => simp [Memory.erase, Memory.read]
  | cons c rest ih =>
    obtain ⟨x, u⟩ := c
    simp only [Memory.erase, List.filter_cons, bne_iff_ne, ne_eq, Memory.read] at ih ⊢
    by_cases h : x = a
    · simp only [h, not_true_eq_false, ↓reduceIte, ih]
      grind
    · simp only [h, not_false_eq_true, ↓reduceIte, Memory.read, ih]
      grind

theorem Memory.read_insert {m : Memory} {a : Nat} (w : Byte) (b : Nat) (h : ∀ c ∈ m, c.1 ≠ a) :
    Memory.read (Memory.insert m a w) b = if b = a then w else Memory.read m b := by
  induction m with
  | nil => simp [Memory.insert, Memory.read, eq_comm]
  | cons c rest ih =>
    obtain ⟨x, u⟩ := c
    have hx : x ≠ a := h (x, u) (by simp)
    have ih := ih (fun c hc => h c (by simp [hc]))
    simp only [Memory.insert]
    split
    · simp only [Memory.read]; grind
    · simp only [Memory.read, ih]; grind

theorem Memory.erase_ne (m : Memory) (a : Nat) : ∀ c ∈ m.erase a, c.1 ≠ a := by
  simp [Memory.erase]

/-- Read after write, for every memory: the written address gives the byte, every other its old value. -/
theorem Memory.read_write (m : Memory) (a b : Nat) (w : Byte) :
    Memory.read (m.write a w) b = if b = a then w else Memory.read m b := by
  simp only [Memory.write]
  split
  · rename_i h
    simp only [Memory.read_erase]; grind
  · rw [Memory.read_insert w b (m.erase_ne a), Memory.read_erase]; grind

theorem Memory.wf_erase {m : Memory} (h : m.wf) (a : Nat) : (m.erase a).wf :=
  ⟨h.1.filter _, fun c hc => h.2 c (List.mem_of_mem_filter hc)⟩

theorem Memory.mem_insert {m : Memory} {a : Nat} {w : Byte} {c : Host.Cell}
    (h : c ∈ Memory.insert m a w) : c = (a, w) ∨ c ∈ m := by
  induction m with
  | nil => simpa [Memory.insert] using h
  | cons d rest ih =>
    obtain ⟨x, u⟩ := d
    simp only [Memory.insert] at h
    split at h
    · simpa using h
    · rcases List.mem_cons.mp h with h | h
      · exact .inr (by simp [h])
      · rcases ih h with h | h
        · exact .inl h
        · exact .inr (by simp [h])

theorem Memory.pairwise_insert {m : Memory} {a : Nat} (w : Byte)
    (h : m.Pairwise (fun c d => c.1 < d.1)) (hne : ∀ c ∈ m, c.1 ≠ a) :
    (Memory.insert m a w).Pairwise (fun c d => c.1 < d.1) := by
  induction m with
  | nil => simp [Memory.insert]
  | cons d rest ih =>
    obtain ⟨x, u⟩ := d
    rw [List.pairwise_cons] at h
    have hx : x ≠ a := hne (x, u) (by simp)
    simp only [Memory.insert]
    split
    · rename_i hlt
      refine List.pairwise_cons.mpr ⟨fun c hc => ?_, List.pairwise_cons.mpr h⟩
      rcases List.mem_cons.mp hc with rfl | hc
      · exact hlt
      · exact Nat.lt_trans hlt (h.1 c hc)
    · rename_i hlt
      refine List.pairwise_cons.mpr ⟨fun c hc => ?_, ih h.2 (fun c hc => hne c (by simp [hc]))⟩
      rcases Memory.mem_insert hc with rfl | hc
      · show x < a; omega
      · exact h.1 c hc

/-- A write inside the memory array keeps the canonical form. -/
theorem Memory.wf_write {m : Memory} (h : m.wf) {a : Nat} (ha : a < Config.memSize) (w : Byte) :
    (m.write a w).wf := by
  simp only [Memory.write]
  split
  · exact Memory.wf_erase h a
  · rename_i hw
    have he := Memory.wf_erase h a
    refine ⟨Memory.pairwise_insert w he.1 (m.erase_ne a), fun c hc => ?_⟩
    rcases Memory.mem_insert hc with rfl | hc
    · exact ⟨ha, hw⟩
    · exact he.2 c hc

/-- `MemWrite` keeps the canonical form at every address. -/
theorem State.memWrite_wf {s : State} (h : s.mem.wf) (a : Nat) (w : Byte) : (s.memWrite a w).mem.wf :=
  Memory.wf_write h (Nat.mod_lt _ (by decide)) w

/-- An address below every entry is not listed. -/
theorem Memory.read_of_lt {m : Memory} {a : Nat} (h : ∀ c ∈ m, a < c.1) :
    Memory.read m a = Memory.initialByte a := by
  induction m with
  | nil => rfl
  | cons d rest ih =>
    obtain ⟨x, u⟩ := d
    have hx : a < x := h (x, u) (by simp)
    simp only [Memory.read, if_neg (show x ≠ a by omega)]
    exact ih (fun c hc => h c (by simp [hc]))

/-- All a run of stores can do: it is the old state but for memory. -/
theorem State.storeBytes_eq (s : State) (a : Nat) (f : Nat → Byte) (n : Nat) :
    ∃ m, s.storeBytes a f n = { s with mem := m } := by
  induction n with
  | zero => exact ⟨s.mem, rfl⟩
  | succ n ih =>
    obtain ⟨m, hm⟩ := ih
    refine ⟨m.write ((a + n) % Config.memSize) (f n), ?_⟩
    have h : s.storeBytes a f (n + 1) = (s.storeBytes a f n).memWrite (a + n) (f n) := by
      simp [State.storeBytes, List.range_succ]
    rw [h, hm]; rfl

/-- A run of stores keeps the canonical form. -/
theorem State.storeBytes_wf {s : State} (h : s.mem.wf) (a : Nat) (f : Nat → Byte) (n : Nat) :
    (s.storeBytes a f n).mem.wf := by
  induction n with
  | zero => exact h
  | succ n ih =>
    have e : s.storeBytes a f (n + 1) = (s.storeBytes a f n).memWrite (a + n) (f n) := by
      simp [State.storeBytes, List.range_succ]
    rw [e]; exact State.memWrite_wf ih _ _

/-- What one byte reads as after one `MemWrite`. -/
theorem State.memRead_memWrite (s : State) (a b : Nat) (w : Byte) :
    (s.memWrite a w).memRead b =
      if b % Config.memSize = a % Config.memSize then w else s.memRead b := by
  simp [State.memRead, State.memWrite, Memory.read_write]

/-- Outside the stored addresses a run of stores changes no byte. -/
theorem State.memRead_storeBytes_other (s : State) (a : Nat) (f : Nat → Byte) (n b : Nat)
    (h : ∀ k, k < n → b % Config.memSize ≠ (a + k) % Config.memSize) :
    (s.storeBytes a f n).memRead b = s.memRead b := by
  induction n with
  | zero => rfl
  | succ n ih =>
    have e : s.storeBytes a f (n + 1) = (s.storeBytes a f n).memWrite (a + n) (f n) := by
      simp [State.storeBytes, List.range_succ]
    rw [e, State.memRead_memWrite, if_neg (h n (by omega)), ih (fun k hk => h k (by omega))]

/-- At its `k`-th address a run of at most 4096 stores left its `k`-th byte. -/
theorem State.memRead_storeBytes (s : State) (a : Nat) (f : Nat → Byte) (n k : Nat)
    (hn : n ≤ Config.memSize) (hk : k < n) : (s.storeBytes a f n).memRead (a + k) = f k := by
  induction n with
  | zero => omega
  | succ n ih =>
    have e : s.storeBytes a f (n + 1) = (s.storeBytes a f n).memWrite (a + n) (f n) := by
      simp [State.storeBytes, List.range_succ]
    rw [e, State.memRead_memWrite]
    simp only [Config.memSize] at *
    by_cases hkn : k = n
    · simp [hkn]
    · rw [if_neg (by omega), ih (by omega) (by omega)]

end Sys2Proof.Machine
end

