-- ==== Sys2Proof/Laws/Registers.lean ====
section
/-! SUPPORT. Reading and writing data registers and the stack; the range load. -/

namespace Sys2Proof.Machine

/-- What every later read of a data register sees after one write. -/
theorem State.getV_setV (s : State) (x r : Nibble) (b : Byte) :
    (s.setV x b).getV r = if x = r then b else s.getV r := by
  simp [State.getV, State.setV, Vector.getElem_set, BitVec.toNat_inj]

@[simp] theorem State.getV_setV_same (s : State) (x : Nibble) (b : Byte) : (s.setV x b).getV x = b := by
  simp [State.getV_setV]

theorem State.getV_setV_ne {s : State} {x r : Nibble} {b : Byte} (h : r ≠ x) :
    (s.setV x b).getV r = s.getV r := by
  simp [State.getV_setV, Ne.symm h]

/-- Two register files that read the same everywhere are the same. -/
theorem v_ext {s t : State} (h : ∀ r, t.getV r = s.getV r) : t.v = s.v := by
  refine Vector.ext fun k hk => ?_
  have := h (BitVec.ofNat 4 k)
  simpa [State.getV, Nat.mod_eq_of_lt hk] using this

/-- The order of 40_alu.md R100, seen by a later read: VF holds the flag, the destination the result
unless it is VF, every other register its old value. -/
theorem State.writeFlagged_getV (s : State) (x r : Nibble) (f : Flagged) :
    (s.writeFlagged x f).getV r =
      if r = vf then flagByte f.flag else if r = x then f.value else s.getV r := by
  simp only [State.writeFlagged, State.setFlag_eq, State.advance_eq, State.setPc_getV, State.getV_setV]
  grind

/-- All a flag instruction can do: registers, and the program counter. -/
theorem State.writeFlagged_eq (s : State) (x : Nibble) (f : Flagged) :
    s.writeFlagged x f = ((s.setV x f.value).setV vf (flagByte f.flag)).setPc (s.pc + 2) := rfl

/-- All a range load can do: it is the old state but for the registers. -/
theorem State.loadRange_eq (s : State) (n : Nat) : ∃ w, s.loadRange n = { s with v := w } := by
  induction n with
  | zero => exact ⟨s.v, rfl⟩
  | succ n ih =>
    obtain ⟨w, hw⟩ := ih
    refine ⟨((s.loadRange n).setV (BitVec.ofNat 4 n) ((s.loadRange n).memRead ((s.loadRange n).ea n))).v, ?_⟩
    have h : s.loadRange (n + 1) = (s.loadRange n).setV (BitVec.ofNat 4 n)
        ((s.loadRange n).memRead ((s.loadRange n).ea n)) := by
      simp [State.loadRange, List.range_succ]
    rw [h]
    simp [State.setV, hw]

/-- What a register reads as after a range load of `n` registers. -/
theorem State.loadRange_getV (s : State) (n : Nat) (hn : n ≤ 16) (r : Nibble) :
    (s.loadRange n).getV r = if r.toNat < n then s.memRead (s.ea r.toNat) else s.getV r := by
  induction n with
  | zero => simp [State.loadRange]
  | succ n ih =>
    have h : s.loadRange (n + 1) = (s.loadRange n).setV (BitVec.ofNat 4 n)
        ((s.loadRange n).memRead ((s.loadRange n).ea n)) := by
      simp [State.loadRange, List.range_succ]
    obtain ⟨w, hw⟩ := s.loadRange_eq n
    have hm : (s.loadRange n).memRead ((s.loadRange n).ea n) = s.memRead (s.ea n) := by
      rw [hw]; rfl
    have e : BitVec.ofNat 4 n = r ↔ n = r.toNat := by
      rw [← BitVec.toNat_inj, BitVec.toNat_ofNat, Nat.mod_eq_of_lt (by omega)]
    rw [h, State.getV_setV, hm, ih (by omega)]
    by_cases hr : n = r.toNat
    · rw [if_pos (e.mpr hr), if_pos (by omega), hr]
    · rw [if_neg (fun hh => hr (e.mp hh))]
      have : r.toNat < n ↔ r.toNat < n + 1 := by omega
      simp [this]

/-- A push keeps the entries below, and the new entry is the pushed word. -/
theorem State.push_stack_get (s : State) (w : Word) (h : s.sp.val < 16) (k : Nat) (hk : k < 16) :
    (s.push w h).stack[k] = if s.sp.val = k then w else s.stack[k] := by
  simp [Vector.getElem_set]

end Sys2Proof.Machine
end

