-- ==== Sys2Proof/Laws/Step.lean ====
section
/-! SUPPORT. Everything a turn can do, said once; what fetching reads; what shared operations leave alone. -/

namespace Sys2Proof.Machine

/-- Everything the instruction step can do (44_flow_control.md R150). -/
theorem State.instrStep_cases {s t : State} (h : s.instrStep = .next t) :
    (s.pcInWindow = false ∧ t = s.raiseHalt .addressEscape 0) ∨
    (s.pcInWindow = true ∧ (∃ e, decodeWord s.fetchWord = .error e) ∧
      t = s.raiseHalt .decodeFailure s.fetchWord) ∨
    (∃ i, s.pcInWindow = true ∧ decodeWord s.fetchWord = .ok i ∧ exec i s = .next t) := by
  unfold State.instrStep at h
  split at h
  · rename_i hw
    split at h
    · rename_i i hd
      exact .inr (.inr ⟨i, hw, hd, h⟩)
    · rename_i e hd
      exact .inr (.inl ⟨hw, ⟨e, hd⟩, by injection h with h; exact h.symm⟩)
  · rename_i hw
    exact .inl ⟨by simpa using hw, by injection h with h; exact h.symm⟩

/-- Everything a load can do (20_memory.md R63). -/
theorem State.hostLoad_cases {s t : State} {rom : List Byte} (h : s.hostLoad rom = .next t) :
    s.started = false ∧ rom.length ≤ Config.romMax ∧ t = s.placeRom rom := by
  unfold State.hostLoad at h
  split at h
  · exact absurd h (by simp)
  · rename_i hs
    split at h
    · exact absurd h (by simp)
    · rename_i hl
      injection h with h
      exact ⟨by simpa using hs, Nat.le_of_not_gt hl, h.symm⟩

/-- Everything the agent whose turn it is can do (00_scope.md R3). -/
theorem State.takeTurn_cases {s t : State} (h : s.takeTurn = .next t) :
    (s.turn = .instr ∧ s.run = .running ∧ s.begin.instrStep = .next t) ∨
    (s.turn = .instr ∧ (∃ x, s.run = .awaitingKey x) ∧ t = s) ∨
    (s.turn = .tick ∧ t = s.tick) ∨
    (∃ k, s.turn = .keyEdge k ∧ t = s.keyEdge k) ∨
    (s.turn = .reset ∧ t = s.hostReset) ∨
    (∃ rom, s.turn = .load rom ∧ s.hostLoad rom = .next t) := by
  unfold State.takeTurn at h
  split at h
  · rename_i ht
    unfold State.interpTurn at h
    split at h
    · rename_i hr
      exact .inl ⟨ht, hr, h⟩
    · rename_i x hr
      injection h with h
      exact .inr (.inl ⟨ht, ⟨x, hr⟩, h.symm⟩)
    · exact absurd h (by simp)
  · rename_i ht
    injection h with h
    exact .inr (.inr (.inl ⟨ht, h.symm⟩))
  · rename_i k ht
    injection h with h
    exact .inr (.inr (.inr (.inl ⟨k, ht, h.symm⟩)))
  · rename_i ht
    injection h with h
    exact .inr (.inr (.inr (.inr (.inl ⟨ht, h.symm⟩))))
  · rename_i rom ht
    exact .inr (.inr (.inr (.inr (.inr ⟨rom, ht, h⟩))))

/-- A step is a turn with the inputs moved on. -/
theorem step_next_iff {s t : State} : step s = .next t ↔ ∃ u, s.takeTurn = .next u ∧ t = u.moveOn := by
  unfold step
  cases s.takeTurn <;> simp [endTurn, eq_comm]

/-- The interpreter's turn in `Running` is an instruction step. -/
theorem step_running {s : State} (ht : s.turn = .instr) (hr : s.run = .running) :
    step s = endTurn s.begin.instrStep := by
  simp only [step, State.takeTurn, ht, State.interpTurn, hr]

/-- Everything one step can do. -/
theorem step_cases {s t : State} (h : step s = .next t) :
    (s.turn = .instr ∧ s.run = .running ∧ ∃ u, s.begin.instrStep = .next u ∧ t = u.moveOn) ∨
    (s.turn = .instr ∧ (∃ x, s.run = .awaitingKey x) ∧ t = s.moveOn) ∨
    (s.turn = .tick ∧ t = s.tick.moveOn) ∨
    (∃ k, s.turn = .keyEdge k ∧ t = (s.keyEdge k).moveOn) ∨
    (s.turn = .reset ∧ t = s.hostReset.moveOn) ∨
    (∃ rom, s.turn = .load rom ∧ s.started = false ∧ rom.length ≤ Config.romMax ∧
      t = (s.placeRom rom).moveOn) := by
  obtain ⟨u, hu, rfl⟩ := step_next_iff.mp h
  rcases State.takeTurn_cases hu with ⟨h1, h2, h3⟩ | ⟨h1, h2, rfl⟩ | ⟨h1, rfl⟩ | ⟨k, h1, rfl⟩ | ⟨h1, rfl⟩ |
    ⟨rom, h1, h2⟩
  · exact .inl ⟨h1, h2, u, h3, rfl⟩
  · exact .inr (.inl ⟨h1, h2, rfl⟩)
  · exact .inr (.inr (.inl ⟨h1, rfl⟩))
  · exact .inr (.inr (.inr (.inl ⟨k, h1, rfl⟩)))
  · exact .inr (.inr (.inr (.inr (.inl ⟨h1, rfl⟩))))
  · obtain ⟨h3, h4, rfl⟩ := State.hostLoad_cases h2
    exact .inr (.inr (.inr (.inr (.inr ⟨rom, h1, h3, h4, rfl⟩))))

/-- Everything `CALL` can do (44_flow_control.md R154). -/
theorem execCall_cases {nnn : Addr} {s t : State} (h : execCall nnn s = .next t) :
    (∃ hs : s.sp.val < 16, t = (s.push (s.pc + 2) hs).setPc (zextAddr nnn)) ∨
    (s.sp.val = 16 ∧ t = s.raiseHalt .stackOverflow (encode (.call nnn))) := by
  unfold execCall at h
  split at h
  · rename_i hs
    injection h with h
    exact .inl ⟨hs, h.symm⟩
  · rename_i hs
    injection h with h
    have := s.sp.isLt
    exact .inr ⟨by omega, h.symm⟩

/-- Everything `RET` can do (44_flow_control.md R152). -/
theorem execRet_cases {s t : State} (h : execRet s = .next t) :
    (∃ hs : 0 < s.sp.val, t = s.drop.setPc (s.top hs)) ∨
    (s.sp.val = 0 ∧ t = s.raiseHalt .stackUnderflow (encode .ret)) := by
  unfold execRet at h
  split at h
  · rename_i hs
    injection h with h
    exact .inl ⟨hs, h.symm⟩
  · rename_i hs
    injection h with h
    exact .inr ⟨by omega, h.symm⟩

/-! ### The interpreter's view does not depend on the model's own fields -/

@[simp] theorem State.setInputs_fetchWord (s : State) (n : Inputs) :
    (s.setInputs n).fetchWord = s.fetchWord := rfl
@[simp] theorem State.begin_fetchWord (s : State) : s.begin.fetchWord = s.fetchWord := rfl
@[simp] theorem State.setInputs_pcInWindow (s : State) (n : Inputs) :
    (s.setInputs n).pcInWindow = s.pcInWindow := rfl
@[simp] theorem State.begin_pcInWindow (s : State) : s.begin.pcInWindow = s.pcInWindow := rfl

/-- The window in numbers (60_exceptions.md R172). -/
theorem State.pcInWindow_iff (s : State) :
    s.pcInWindow = true ↔ 0x200 ≤ s.pc.toNat ∧ s.pc.toNat ≤ 0xFFE := by
  simp [State.pcInWindow]

/-- Inside the window the fetch reads the two bytes that `MemRead` reads (20_memory.md R55). -/
theorem State.fetchWord_eq {s : State} (h : s.pcInWindow = true) :
    s.fetchWord = wordOfBytes (s.memRead s.pc.toNat) (s.memRead (s.pc.toNat + 1)) := by
  rw [State.pcInWindow_iff] at h
  simp only [State.fetchWord, State.fetchHigh, State.fetchLow, State.memRead, Config.memSize]
  rw [Nat.mod_eq_of_lt (by omega), Nat.mod_eq_of_lt (by omega)]

end Sys2Proof.Machine
end

