-- ==== Sys2Proof/Laws/Inputs.lean ====
section
/-! SUPPORT. The inputs of a turn: which ones a run fixes, and that the free schedule has ticks without
end. -/

namespace Sys2Proof

/-- Within a block the place moves on by one turn. -/
theorem Config.place_add (n d : Nat) (h : (Config.place n).2 + d ≤ (Config.turns (Config.place n).1).length) :
    Config.place (n + d) = ((Config.place n).1, (Config.place n).2 + d) := by
  induction d with
  | zero => rfl
  | succ d ih =>
    have ih := ih (by omega)
    have hd : (Config.place n).2 + d < (Config.turns (Config.place n).1).length := by omega
    rw [← Nat.add_assoc, Config.place, ih, if_pos hd]
    rfl

/-- The place is never past the tick that ends its block. -/
theorem Config.place_le (n : Nat) : (Config.place n).2 ≤ (Config.turns (Config.place n).1).length := by
  induction n with
  | zero => exact Nat.zero_le _
  | succ n ih =>
    rw [Config.place]
    split
    · assumption
    · exact Nat.zero_le _

/-- The fairness of 60_exceptions.md R181: after every turn of the free schedule there is a tick. -/
theorem Config.freeTurn_tick_after (n : Nat) : ∃ m, n ≤ m ∧ Config.freeTurn m = .tick := by
  have h := Config.place_le n
  refine ⟨n + ((Config.turns (Config.place n).1).length - (Config.place n).2), by omega, ?_⟩
  rw [Config.freeTurn, Config.place_add n _ (by omega)]
  simp [Nat.add_sub_cancel' h]

namespace Machine

/-! ### Inputs that a run fixes -/

@[simp] theorem Inputs.now_fix (n : Inputs) (f : Given → Given) : (n.fix f).now = f n.now := by
  have h : n.count < (n.given ++ List.replicate (n.count + 1 - n.given.length) Given.free).length := by
    simp; omega
  simp only [Inputs.now, Inputs.fix]
  rw [List.getD_eq_getElem _ _ (by simpa using h)]
  simp

@[simp] theorem Inputs.count_fix (n : Inputs) (f : Given → Given) : (n.fix f).count = n.count := rfl
@[simp] theorem Inputs.count_moveOn (n : Inputs) : n.moveOn.count = n.count + 1 := rfl
@[simp] theorem Inputs.given_moveOn (n : Inputs) : n.moveOn.given = n.given := rfl

/-- A turn the run fixes is the turn that comes. -/
theorem State.turn_of_given {s : State} {t : Turn} (h : s.inputs.now.turn = some t) : s.turn = t := by
  simp only [State.turn, h]

/-- Whose turn it is depends on the inputs and on whether a load is still permitted, on nothing else. -/
theorem State.turn_congr {s t : State} (h : t.inputs = s.inputs) (hs : t.started = s.started) :
    t.turn = s.turn := by
  have hp : ∀ x, t.permits x = s.permits x := fun x => by cases x <;> simp [State.permits, hs]
  simp only [State.turn, h, hp]

/-- The turn that comes where the run fixes none. -/
theorem State.turn_of_free {s : State} (h : s.inputs.now.turn = none) :
    s.turn = if s.permits (Config.freeTurn s.inputs.count) then Config.freeTurn s.inputs.count else .instr := by
  simp only [State.turn, h]

/-- A free turn is one the interface permits, so that no load by the host is refused there. -/
theorem State.permits_turn {s : State} (h : s.inputs.now.turn = none) : s.permits s.turn = true := by
  rw [State.turn_of_free h]
  split
  · assumption
  · rfl

/-! ### The inputs that a step is offered -/

@[simp] theorem State.offer_turn (s : State) (t : Turn) (d : Byte) (l : BitVec 16) :
    (s.offer t d l).turn = t := State.turn_of_given (by simp [State.offer])
@[simp] theorem State.offer_draw (s : State) (t : Turn) (d : Byte) (l : BitVec 16) :
    (s.offer t d l).inputs.draw = d := by simp [State.offer, Inputs.draw]
@[simp] theorem State.offer_levels (s : State) (t : Turn) (d : Byte) (l : BitVec 16) :
    (s.offer t d l).inputs.levels = l := by simp [State.offer, Inputs.levels]

/-- Other inputs are the same machine. -/
theorem State.frame_setInputs (s : State) (n : Inputs) : Frame [.inputs] s (s.setInputs n) := by
  intro p hp
  cases p <;> first | exact absurd (List.mem_singleton.mpr rfl) hp | rfl | exact fun _ => rfl | exact ⟨rfl, rfl⟩

/-! ### No turn writes the inputs (10_state.md R36) -/

/-- No instruction writes the inputs. -/
theorem exec_inputs {i : Instr} {s t : State} (h : exec i s = .next t) : t.inputs = s.inputs := by
  cases i
  case call nnn => rcases execCall_cases h with ⟨_, rfl⟩ | ⟨_, rfl⟩ <;> rfl
  case ret => rcases execRet_cases h with ⟨_, rfl⟩ | ⟨_, rfl⟩ <;> rfl
  case ldVxMem x =>
    obtain ⟨w, hw⟩ := State.loadRange_eq s (x.toNat + 1)
    injection h with h
    rw [← h, hw]; rfl
  case ldMemVx x =>
    obtain ⟨m, hm⟩ := State.storeBytes_eq s (s.ea 0) s.rangeV (x.toNat + 1)
    injection h with h
    rw [← h, hm]; rfl
  all_goals (injection h with h; rw [← h]; rfl)

/-- No turn writes the inputs. -/
theorem State.takeTurn_inputs {s t : State} (h : s.takeTurn = .next t) : t.inputs = s.inputs := by
  rcases State.takeTurn_cases h with ⟨_, _, h3⟩ | ⟨_, _, rfl⟩ | ⟨_, rfl⟩ | ⟨k, _, rfl⟩ | ⟨_, rfl⟩ | ⟨rom, _, h2⟩
  · rcases State.instrStep_cases h3 with ⟨_, rfl⟩ | ⟨_, _, rfl⟩ | ⟨i, _, _, h4⟩
    · rfl
    · rfl
    · exact (exec_inputs h4).trans rfl
  · rfl
  · unfold State.tick; split <;> rfl
  · unfold State.keyEdge; split <;> rfl
  · rfl
  · obtain ⟨_, _, rfl⟩ := State.hostLoad_cases h2
    obtain ⟨m, hm⟩ := State.storeBytes_eq s Config.programBase (fun k => rom.getD k 0) rom.length
    rw [State.placeRom, hm]

/-- A step moves the inputs on to those of the next turn and does nothing else to them. -/
theorem step_inputs {s t : State} (h : step s = .next t) : t.inputs = s.inputs.moveOn := by
  obtain ⟨u, hu, rfl⟩ := step_next_iff.mp h
  rw [State.moveOn_eq, State.setInputs_inputs, State.takeTurn_inputs hu]

end Machine
end Sys2Proof
end

