-- ==== Sys2Proof/Laws/PerInstr.lean ====
section
/-! SUPPORT. One lemma per instruction: decoding its word gives it back. -/

namespace Sys2Proof.Laws.RoundTrip

/-- Decoding the word of a well-formed instruction gives the instruction (30_encoding.md R74, R75). -/
def Statement (i : Instr) : Prop := i.wellFormed = true → decodeWord (encode i) = .ok i

theorem cls : Statement .cls := fun _ => by decide

theorem ret : Statement .ret := fun _ => by decide

theorem sys (nnn : Addr) : Statement (.sys nnn) := by
  intro h
  simp only [Instr.wellFormed, Bool.and_eq_true, bne_iff_ne, ne_eq] at h
  have h1 : formatNNN 0x0#4 nnn ≠ 0x00E0#16 := fun e => h.1 (by
    have := congrArg fieldNNN e
    rwa [nnn_formatNNN] at this)
  have h2 : formatNNN 0x0#4 nnn ≠ 0x00EE#16 := fun e => h.2 (by
    have := congrArg fieldNNN e
    rwa [nnn_formatNNN] at this)
  simp [encode, decodeWord, h1, h2]

theorem jp (nnn : Addr) : Statement (.jp nnn) := fun _ => by
  simp [encode, decodeWord]

theorem call (nnn : Addr) : Statement (.call nnn) := fun _ => by
  simp [encode, decodeWord]

theorem seImm (x : Nibble) (nn : Byte) : Statement (.seImm x nn) := fun _ => by
  simp [encode, decodeWord]

theorem sneImm (x : Nibble) (nn : Byte) : Statement (.sneImm x nn) := fun _ => by
  simp [encode, decodeWord]

theorem seReg (x y : Nibble) : Statement (.seReg x y) := fun _ => by
  simp [encode, decodeWord]

theorem ldImm (x : Nibble) (nn : Byte) : Statement (.ldImm x nn) := fun _ => by
  simp [encode, decodeWord]

theorem addImm (x : Nibble) (nn : Byte) : Statement (.addImm x nn) := fun _ => by
  simp [encode, decodeWord]

theorem ldReg (x y : Nibble) : Statement (.ldReg x y) := fun _ => by
  simp [encode, decodeWord, decodeFam8]

theorem or (x y : Nibble) : Statement (.or x y) := fun _ => by
  simp [encode, decodeWord, decodeFam8]

theorem and (x y : Nibble) : Statement (.and x y) := fun _ => by
  simp [encode, decodeWord, decodeFam8]

theorem xor (x y : Nibble) : Statement (.xor x y) := fun _ => by
  simp [encode, decodeWord, decodeFam8]

theorem addReg (x y : Nibble) : Statement (.addReg x y) := fun _ => by
  simp [encode, decodeWord, decodeFam8]

theorem sub (x y : Nibble) : Statement (.sub x y) := fun _ => by
  simp [encode, decodeWord, decodeFam8]

theorem shr (x y : Nibble) : Statement (.shr x y) := fun _ => by
  simp [encode, decodeWord, decodeFam8]

theorem subn (x y : Nibble) : Statement (.subn x y) := fun _ => by
  simp [encode, decodeWord, decodeFam8]

theorem shl (x y : Nibble) : Statement (.shl x y) := fun _ => by
  simp [encode, decodeWord, decodeFam8]

theorem sneReg (x y : Nibble) : Statement (.sneReg x y) := fun _ => by
  simp [encode, decodeWord]

theorem ldI (nnn : Addr) : Statement (.ldI nnn) := fun _ => by
  simp [encode, decodeWord]

theorem jpV0 (nnn : Addr) : Statement (.jpV0 nnn) := fun _ => by
  simp [encode, decodeWord]

theorem rnd (x : Nibble) (nn : Byte) : Statement (.rnd x nn) := fun _ => by
  simp [encode, decodeWord]

theorem drw (x y n : Nibble) : Statement (.drw x y n) := fun _ => by
  simp [encode, decodeWord]

theorem skp (x : Nibble) : Statement (.skp x) := fun _ => by
  simp [encode, decodeWord, decodeFamE]

theorem sknp (x : Nibble) : Statement (.sknp x) := fun _ => by
  simp [encode, decodeWord, decodeFamE]

theorem ldVxDt (x : Nibble) : Statement (.ldVxDt x) := fun _ => by
  simp [encode, decodeWord, decodeFamF]

theorem ldVxK (x : Nibble) : Statement (.ldVxK x) := fun _ => by
  simp [encode, decodeWord, decodeFamF]

theorem ldDtVx (x : Nibble) : Statement (.ldDtVx x) := fun _ => by
  simp [encode, decodeWord, decodeFamF]

theorem ldStVx (x : Nibble) : Statement (.ldStVx x) := fun _ => by
  simp [encode, decodeWord, decodeFamF]

theorem addIVx (x : Nibble) : Statement (.addIVx x) := fun _ => by
  simp [encode, decodeWord, decodeFamF]

theorem ldFVx (x : Nibble) : Statement (.ldFVx x) := fun _ => by
  simp [encode, decodeWord, decodeFamF]

theorem ldBVx (x : Nibble) : Statement (.ldBVx x) := fun _ => by
  simp [encode, decodeWord, decodeFamF]

theorem ldMemVx (x : Nibble) : Statement (.ldMemVx x) := fun _ => by
  simp [encode, decodeWord, decodeFamF]

theorem ldVxMem (x : Nibble) : Statement (.ldVxMem x) := fun _ => by
  simp [encode, decodeWord, decodeFamF]

end Sys2Proof.Laws.RoundTrip
end

