-- ==== Sys2Proof/Tests/Slice0.lean ====
section
/-! SUPPORT. The model's own tests: ill-formed terms refused, a word of every instruction decoded, one step
of every instruction (expected values: the vectors T<n> and examples of 95_test_vectors.md and of the
rules), and for each statement with hypotheses a state that meets them. -/

namespace Sys2Proof.Tests

open Sys2Proof.Machine

/-! ## Helpers -/

/-- A next state that passes the check. -/
def okB (o : Host.Outcome State Fault Refusal) (p : State → Bool) : Bool :=
  match o with
  | .next t => p t
  | .fault _ => false
  | .refused _ => false

/-- Registers preset. -/
def regs (l : List (Nibble × Byte)) (s : State) : State := l.foldl (fun t c => t.setV c.1 c.2) s

/-- Bytes preset, from an address upward. -/
def bytes (a : Nat) (l : List Byte) (s : State) : State := s.storeBytes a (fun k => l.getD k 0) l.length

/-- One pixel preset. -/
def lit (row : Fin 32) (col : Fin 64) (s : State) : State := s.setFb (Framebuffer.flip s.fb row col)

/-- The stack preset: `n` live entries, all equal to `w`. -/
def depth (n : Fin 17) (w : Word) (s : State) : State := { s with sp := n, stack := Vector.replicate 16 w }

/-- The turns to come fixed, from turn 0. -/
def sched (l : List Turn) (s : State) : State :=
  s.setInputs { given := l.map fun t => { Given.free with turn := some t }, count := 0 }

/-- The random byte and the key levels of turn 0 fixed. -/
def ports (draw : Byte) (keys : BitVec 16) (s : State) : State :=
  s.setInputs { given := [{ turn := none, draw := some draw, keys := some keys }], count := 0 }

/-- The same machine, whatever the inputs. -/
def sameMachine (s t : State) : Bool := s.setInputs Inputs.free == t.setInputs Inputs.free

/-- One instruction step with the word `op` at `pc`, checked. -/
def ran (s : State) (op : Nat) (p : State → Bool) : Bool := okB (step (s.withFetchWord 16 op)) p

/-- Execution from `pc = 0x200` of reset. -/
def z : State := State.reset

/-! ## Well-formedness: the ill-formed terms are refused (30_encoding.md R74, R77) -/

theorem test_sys_of_cls_refused : (Instr.sys 0x0E0).wellFormed = false := by decide
theorem test_sys_of_ret_refused : (Instr.sys 0x0EE).wellFormed = false := by decide
theorem test_sys_neighbours_accepted :
    (Instr.sys 0x0E1).wellFormed = true ∧ (Instr.sys 0x0ED).wellFormed = true ∧
    (Instr.sys 0x0FE).wellFormed = true ∧ (Instr.sys 0xFFF).wellFormed = true := by decide

/-! ## Decoding: the words are written out from the patterns of 30_encoding.md R75 -/

theorem test_decode_family_0 :
    decodeTableWord 16 0x00E0 = some .cls ∧ decodeTableWord 16 0x00EE = some .ret ∧
    decodeTableWord 16 0x0123 = some (.sys 0x123) ∧ decodeTableWord 16 0x00FE = some (.sys 0x0FE) := by
  decide
theorem test_decode_jumps :
    decodeTableWord 16 0x1234 = some (.jp 0x234) ∧ decodeTableWord 16 0x2FFE = some (.call 0xFFE) ∧
    decodeTableWord 16 0xB300 = some (.jpV0 0x300) := by decide
theorem test_decode_skips :
    decodeTableWord 16 0x310A = some (.seImm 0x1 0x0A) ∧ decodeTableWord 16 0x4F0B = some (.sneImm 0xF 0x0B) ∧
    decodeTableWord 16 0x5120 = some (.seReg 0x1 0x2) ∧ decodeTableWord 16 0x9A30 = some (.sneReg 0xA 0x3) := by
  decide
theorem test_decode_immediates :
    decodeTableWord 16 0x6AFF = some (.ldImm 0xA 0xFF) ∧ decodeTableWord 16 0x7320 = some (.addImm 0x3 0x20) ∧
    decodeTableWord 16 0xC50F = some (.rnd 0x5 0x0F) ∧ decodeTableWord 16 0xA2F0 = some (.ldI 0x2F0) := by
  decide
theorem test_decode_family_8_low :
    decodeTableWord 16 0x8120 = some (.ldReg 0x1 0x2) ∧ decodeTableWord 16 0x8121 = some (.or 0x1 0x2) ∧
    decodeTableWord 16 0x8122 = some (.and 0x1 0x2) ∧ decodeTableWord 16 0x8123 = some (.xor 0x1 0x2) ∧
    decodeTableWord 16 0x8014 = some (.addReg 0x0 0x1) := by decide
theorem test_decode_family_8_high :
    decodeTableWord 16 0x8235 = some (.sub 0x2 0x3) ∧ decodeTableWord 16 0x8AB6 = some (.shr 0xA 0xB) ∧
    decodeTableWord 16 0x8237 = some (.subn 0x2 0x3) ∧ decodeTableWord 16 0x841E = some (.shl 0x4 0x1) := by
  decide
theorem test_decode_display_and_keys :
    decodeTableWord 16 0xD345 = some (.drw 0x3 0x4 0x5) ∧ decodeTableWord 16 0xE29E = some (.skp 0x2) ∧
    decodeTableWord 16 0xE2A1 = some (.sknp 0x2) ∧ decodeTableWord 16 0xF30A = some (.ldVxK 0x3) := by decide
theorem test_decode_timers :
    decodeTableWord 16 0xF107 = some (.ldVxDt 0x1) ∧ decodeTableWord 16 0xFF15 = some (.ldDtVx 0xF) ∧
    decodeTableWord 16 0xF418 = some (.ldStVx 0x4) := by decide
theorem test_decode_memory :
    decodeTableWord 16 0xF21E = some (.addIVx 0x2) ∧ decodeTableWord 16 0xF029 = some (.ldFVx 0x0) ∧
    decodeTableWord 16 0xF333 = some (.ldBVx 0x3) ∧ decodeTableWord 16 0xF255 = some (.ldMemVx 0x2) ∧
    decodeTableWord 16 0xF265 = some (.ldVxMem 0x2) := by decide
/-- The illegal words of T30-1 to T30-8. -/
theorem test_decode_illegal :
    [0xFFFF, 0x5121, 0x912F, 0x8018, 0x800F, 0xE09F, 0xF000, 0xF075].map (decodeTableWord 16) =
      List.replicate 8 none := by decide
/-- Too few bytes are no instruction, and the bytes after an instruction are handed back. -/
theorem test_decode_bytes :
    decode [0x60] = (.error .truncated, [0x60]) ∧ decode [0x60, 0x05, 0x80] = (.ok (.ldImm 0x0 0x05), [0x80]) := by
  decide

/-! ## One step of each instruction -/

/-- T40-1. -/
theorem test_ldImm : ran z 0x6AFF (fun t => t.getV 0xA == 0xFF && t.pc == 0x202) = true := by decide
/-- T40-4. -/
theorem test_addImm : ran (regs [(3, 0xFF), (0xF, 0x55)] z) 0x7301
    (fun t => t.getV 3 == 0x00 && t.getV 0xF == 0x55) = true := by decide
/-- T40-6. -/
theorem test_ldReg : ran (regs [(1, 0x2A)] z) 0x8010 (fun t => t.getV 0 == 0x2A && t.getV 1 == 0x2A) = true := by
  decide
/-- T40-7. -/
theorem test_or : ran (regs [(0, 0x0F), (1, 0xF0), (0xF, 1)] z) 0x8011
    (fun t => t.getV 0 == 0xFF && t.getV 0xF == 1) = true := by decide
/-- T40-8. -/
theorem test_and : ran (regs [(0, 0x3C), (1, 0x0F), (0xF, 1)] z) 0x8012
    (fun t => t.getV 0 == 0x0C && t.getV 0xF == 1) = true := by decide
/-- T40-9. -/
theorem test_xor : ran (regs [(0, 0xFF), (1, 0x0F), (0xF, 1)] z) 0x8013
    (fun t => t.getV 0 == 0xF0 && t.getV 0xF == 1) = true := by decide
/-- T40-14. -/
theorem test_addReg_carry : ran (regs [(0, 0xFF), (1, 0xFF)] z) 0x8014
    (fun t => t.getV 0 == 0xFE && t.getV 0xF == 1) = true := by decide
/-- T40-18: the destination is VF. -/
theorem test_addReg_vf : ran (regs [(0xF, 3), (1, 4)] z) 0x8F14 (fun t => t.getV 0xF == 0) = true := by decide
/-- T40-19. -/
theorem test_sub_borrow : ran (regs [(2, 0x10), (3, 0x20), (0xF, 1)] z) 0x8235
    (fun t => t.getV 2 == 0xF0 && t.getV 0xF == 0) = true := by decide
/-- T40-21. -/
theorem test_sub_equal : ran (regs [(2, 0x33), (3, 0x33)] z) 0x8235
    (fun t => t.getV 2 == 0 && t.getV 0xF == 1) = true := by decide
/-- T40-28: Vy is ignored. -/
theorem test_shr : ran (regs [(4, 0x80), (1, 1), (0xF, 1)] z) 0x8416
    (fun t => t.getV 4 == 0x40 && t.getV 0xF == 0) = true := by decide
/-- T40-29. -/
theorem test_shr_vf : ran (regs [(0xF, 3)] z) 0x8F06 (fun t => t.getV 0xF == 1) = true := by decide
/-- T40-32. -/
theorem test_subn_borrow : ran (regs [(2, 0x20), (3, 0x10), (0xF, 1)] z) 0x8237
    (fun t => t.getV 2 == 0xF0 && t.getV 0xF == 0) = true := by decide
/-- T40-31. -/
theorem test_subn : ran (regs [(2, 0x10), (3, 0x20)] z) 0x8237
    (fun t => t.getV 2 == 0x10 && t.getV 0xF == 1) = true := by decide
/-- T40-35. -/
theorem test_shl : ran (regs [(4, 0x81)] z) 0x840E (fun t => t.getV 4 == 2 && t.getV 0xF == 1) = true := by decide
/-- T40-39. -/
theorem test_shl_vf : ran (regs [(0xF, 1)] z) 0x8F0E (fun t => t.getV 0xF == 0) = true := by decide
/-- T40-40. -/
theorem test_rnd : ran (regs [(5, 0xFF)] (ports 0xA7 0 z)) 0xC50F
    (fun t => t.getV 5 == 0x07 && t.pc == 0x202) = true := by decide
/-- T40-41: the mask 00 gives 00; the inputs move on to the next turn. -/
theorem test_rnd_free : ran (regs [(5, 0xFF)] (ports 0xFF 0 z)) 0xC500
    (fun t => t.getV 5 == 0 && t.inputs.count == 1) = true := by decide

/-- T41-2. -/
theorem test_ldI : ran (z.setI 0x123) 0xAFFF (fun t => t.i == 0xFFF) = true := by decide
/-- T41-5. -/
theorem test_addIVx : ran (regs [(2, 0xFF), (0xF, 9)] (z.setI 0xF80)) 0xF21E
    (fun t => t.i == 0x07F && t.getV 0xF == 9) = true := by decide
/-- T41-10. -/
theorem test_ldFVx : ran (regs [(0, 0x1A)] z) 0xF029 (fun t => t.i == 0x132) = true := by decide
/-- T41-17: the third store wraps. -/
theorem test_ldBVx : ran (regs [(3, 0x7B)] (z.setI 0xFFE)) 0xF333
    (fun t => t.memRead 0xFFE == 1 && t.memRead 0xFFF == 2 && t.memRead 0x000 == 3 && t.i == 0xFFE) = true := by
  decide
/-- T41-18. -/
theorem test_ldMemVx : ran (regs [(0, 0x11), (1, 0x22), (2, 0x33), (3, 0x44)] (z.setI 0x400)) 0xF255
    (fun t => [0x400, 0x401, 0x402, 0x403].map t.memRead == [0x11, 0x22, 0x33, 0x00] && t.i == 0x400) = true := by
  decide
/-- T41-20: the second store wraps. -/
theorem test_ldMemVx_wraps : ran (regs [(0, 0xAB), (1, 0xCD)] (z.setI 0xFFF)) 0xF155
    (fun t => t.memRead 0xFFF == 0xAB && t.memRead 0 == 0xCD) = true := by decide
/-- T41-22. -/
theorem test_ldVxMem : ran (regs [(3, 0x99)] (bytes 0x400 [0xAA, 0xBB, 0xCC, 0xDD] (z.setI 0x400))) 0xF265
    (fun t => [0, 1, 2, 3].map t.getV == [0xAA, 0xBB, 0xCC, 0x99] && t.i == 0x400) = true := by decide
/-- T41-24: the font. -/
theorem test_ldVxMem_font : ran (z.setI 0x100) 0xF465
    (fun t => [0, 1, 2, 3, 4].map t.getV == [0xF0, 0x90, 0x90, 0x90, 0xF0]) = true := by decide

/-- T42-10. -/
theorem test_cls : ran (lit 5 5 (lit 31 63 (regs [(0xF, 1)] z))) 0x00E0
    (fun t => t.fb == Framebuffer.clear && t.getV 0xF == 1) = true := by decide
/-- T42-2: horizontal wrap; column 62, 63, 0, 1 of row 0. -/
theorem test_drw_wraps : ran (regs [(0, 0x3E), (0xF, 1)] (z.setI 0x100)) 0xD011
    (fun t => t.fb[0] == 0xC000000000000003#64 && t.fb[1] == 0 && t.getV 0xF == 0) = true := by decide
/-- T42-9: one collision is enough. -/
theorem test_drw_collides : ran (lit 0 3 (lit 0 4 (bytes 0x300 [0xF0] (z.setI 0x300)))) 0xD001
    (fun t => t.fb[0] == 0x17#64 && t.getV 0xF == 1) = true := by decide

/-- T43-3: the upper nibble is ignored. -/
theorem test_skp : ran (regs [(2, 0x1A)] (ports 0 0x0400 z)) 0xE29E
    (fun t => t.pc == 0x204 && t.inputs.count == 1) = true := by decide
/-- T43-2. -/
theorem test_skp_up : ran (regs [(2, 5)] (ports 0 0 z)) 0xE29E
    (fun t => t.pc == 0x202) = true := by decide
/-- T43-6. -/
theorem test_sknp : ran (regs [(2, 0xF5)] (ports 0 0x0020 z)) 0xE2A1
    (fun t => t.pc == 0x202) = true := by decide
/-- T43-4. -/
theorem test_sknp_up : ran (regs [(2, 5)] (ports 0 0 z)) 0xE2A1
    (fun t => t.pc == 0x204) = true := by decide
/-- T43-7: a key held down does not complete the wait. -/
theorem test_ldVxK : ran (ports 0 0x0080 (z.setPc 0x210)) 0xF30A
    (fun t => t.run == .awaitingKey 3 && t.pc == 0x210) = true := by decide
/-- T43-7b. -/
theorem test_key_edge : okB (step (sched [.keyEdge 7] ((z.setPc 0x210).awaitKey 3)))
    (fun t => t.getV 3 == 7 && t.pc == 0x212 && t.run == .running) = true := by decide
/-- T43-9. -/
theorem test_ldVxDt : ran (regs [(1, 9)] (z.setDt 0x3C)) 0xF107 (fun t => t.getV 1 == 0x3C) = true := by decide
/-- T43-12. -/
theorem test_ldDtVx : ran (regs [(0xF, 0xFF)] z) 0xFF15 (fun t => t.dt == 0xFF && t.st == 0) = true := by decide
/-- T43-11. -/
theorem test_ldStVx : ran (regs [(4, 2)] z) 0xF418 (fun t => t.st == 2 && t.dt == 0 && t.soundActive) = true := by
  decide

/-- T44-1. -/
theorem test_sys : ran z 0x0123 (fun t => t.pc == 0x202 && t.run == .running) = true := by decide
/-- T44-2. -/
theorem test_jp : ran z 0x1234 (fun t => t.pc == 0x234) = true := by decide
/-- T44-8: the 16th entry. -/
theorem test_call : ran (depth 15 0x300 (z.setPc 0x204)) 0x2300
    (fun t => t.stack[15] == 0x206 && t.stack[14] == 0x300 && t.sp == 16 && t.pc == 0x300) = true := by decide
/-- T44-9. -/
theorem test_call_overflow : ran (depth 16 0x300 (z.setPc 0x204)) 0x2300
    (fun t => t.run == .halted .stackOverflow && t.halt == ⟨3, 0x204, 0x2300⟩ && t.pc == 0x204 && t.sp == 16) = true := by
  decide
/-- T44-11. -/
theorem test_ret : ran (depth 1 0x206 (z.setPc 0x300)) 0x00EE
    (fun t => t.sp == 0 && t.pc == 0x206 && t.stack[0] == 0x206) = true := by decide
/-- T44-12. -/
theorem test_ret_underflow : ran (z.setPc 0x300) 0x00EE
    (fun t => t.run == .halted .stackUnderflow && t.halt == ⟨4, 0x300, 0x00EE⟩ && t.pc == 0x300) = true := by decide
/-- T44-14: no reduction modulo 0x1000. -/
theorem test_jpV0 : ran (regs [(0, 0xFF)] z) 0xBFFF (fun t => t.pc == 0x10FE) = true := by decide
/-- T44-18: a taken skip at the top of memory. -/
theorem test_seImm : ran (z.setPc 0xFFE) 0x3F00 (fun t => t.pc == 0x1002) = true := by decide
/-- T44-17. -/
theorem test_seImm_not : ran (regs [(1, 0x0A)] z) 0x310B (fun t => t.pc == 0x202) = true := by decide
/-- T44-21. -/
theorem test_sneImm : ran (regs [(1, 0x0A)] z) 0x410B (fun t => t.pc == 0x204) = true := by decide
/-- T44-20. -/
theorem test_sneImm_not : ran (regs [(1, 0x0A)] z) 0x410A (fun t => t.pc == 0x202) = true := by decide
/-- T44-22. -/
theorem test_seReg : ran (regs [(1, 7), (2, 7)] z) 0x5120 (fun t => t.pc == 0x204) = true := by decide
/-- T44-23. -/
theorem test_seReg_not : ran (regs [(1, 7), (2, 8)] z) 0x5120 (fun t => t.pc == 0x202) = true := by decide
/-- T44-25. -/
theorem test_sneReg : ran (regs [(1, 7), (2, 8)] z) 0x9120 (fun t => t.pc == 0x204) = true := by decide
/-- T44-26. -/
theorem test_sneReg_not : ran (regs [(1, 7), (2, 7)] z) 0x9120 (fun t => t.pc == 0x202) = true := by decide

/-! ## Fatal conditions, ticks, reset, load -/

/-- T30-1. -/
theorem test_decode_failure : ran z 0xFFFF
    (fun t => t.run == .halted .decodeFailure && t.halt == ⟨1, 0x200, 0xFFFF⟩ && t.pc == 0x200) = true := by decide
/-- T60-9: AddressEscape before DecodeFailure. -/
theorem test_escape_first : ran (z.setPc 0x1FE) 0xFFFF (fun t => t.halt == ⟨2, 0x1FE, 0⟩) = true := by decide
/-- T60-7: 0xFFE is the last legal fetch address. -/
theorem test_last_fetch : ran (z.setPc 0xFFE) 0x6001 (fun t => t.getV 0 == 1 && t.pc == 0x1000) = true := by decide
/-- T60-2. -/
theorem test_tick : okB (step (sched [.tick] (z.setSt 1)))
    (fun t => t.dt == 0 && t.st == 0 && !t.soundActive) = true := by decide
/-- T60-3: no tick in `Halted`. -/
theorem test_tick_halted : okB (step (sched [.tick] ((z.setDt 5).raiseHalt .decodeFailure 0xFFFF)))
    (fun t => t.dt == 5) = true := by decide
/-- T60-5: an edge in `Running` is dropped. -/
theorem test_edge_running : okB (step (sched [.keyEdge 3] z)) (sameMachine z) = true := by decide
/-- T70-1. -/
theorem test_reset : okB (step (sched [.reset] (regs [(1, 7)] (z.raiseHalt .addressEscape 0))))
    (sameMachine z) = true := by decide
/-- 20_memory.md R63: the bytes go to 0x200 upward. -/
theorem test_load : okB (step (sched [.load [0x12, 0x34]] (z.setPc 0x300)))
    (fun t => t.memRead 0x200 == 0x12 && t.memRead 0x201 == 0x34 && t.memRead 0x202 == 0 && t.pc == 0x200) = true := by
  decide

/-! ## For every statement with hypotheses, states that meet them -/

/-- A halted state that meets the invariant. -/
def halted : State := { z.raiseHalt .decodeFailure 0xFFFF with started := true }

/-- A waiting state that meets the invariant, in the middle of a program. -/
def waiting : State := { (depth 2 0x202 (z.setPc 0xFFE)).awaitKey 0xF with started := true, dt := 1 }

/-- A running state that meets the invariant: bytes written, full stack, extreme registers. -/
def busy : State := { bytes 0xFFE [1, 2] (depth 16 0x1000 ((z.setPc 0x10FE).setI 0xFFF)) with started := true }

theorem halted_inv : halted.Inv := ⟨by decide, by decide, by decide, by decide, ⟨rfl, rfl, rfl⟩⟩
theorem waiting_inv : waiting.Inv := ⟨by decide, by decide, by decide, by decide, ⟨rfl, rfl, rfl⟩⟩
theorem busy_inv : busy.Inv := ⟨by decide, by decide, by decide, by decide, rfl⟩

/-- The invariant does not depend on the inputs, so the witnesses below may set it. -/
theorem sched_inv {s : State} (h : s.Inv) (l : List Turn) : (sched l s).Inv :=
  ⟨h.memory, h.address, h.counter, h.returns, h.agrees⟩

/-- DecodeAfterEncode. -/
theorem witness_well_formed : (Instr.sys 0x0DF).wellFormed = true ∧ (Instr.sys 0x0EF).wellFormed = true ∧
    (Instr.drw 0xF 0xF 0xF).wellFormed = true := by decide
/-- EncodeAfterDecode. -/
theorem witness_decodes : decodeWord 0x00E0 = .ok .cls ∧ decodeWord 0x00E1 = .ok (.sys 0x0E1) ∧
    decodeWord 0x8FFE = .ok (.shl 0xF 0xF) := by decide
/-- DecoderFollowsOpcodeMap: the two overlaps. -/
theorem witness_overlap :
    (0x00E0 &&& opcodeMap[0].mask = opcodeMap[0].pattern ∧ 0x00E0 &&& opcodeMap[2].mask = opcodeMap[2].pattern) ∧
    (0x00EE &&& opcodeMap[1].mask = opcodeMap[1].pattern ∧ 0x00EE &&& opcodeMap[2].mask = opcodeMap[2].pattern) := by
  decide
/-- StepRunsDecodedInstruction, FatalConditionsInOrder: an interpreter's turn in `Running`, on both sides
of both ends of the window, with a word that decodes and one that does not. -/
theorem witness_instruction_turn :
    (sched [.instr] z).turn = .instr ∧ z.run = .running ∧ z.pcInWindow = true ∧ (z.setPc 0x1FF).pcInWindow = false ∧
    (z.setPc 0xFFE).pcInWindow = true ∧ (z.setPc 0xFFF).pcInWindow = false ∧
    decodeWord z.fetchWord = .ok (.sys 0) ∧
    decodeWord (z.withFetchWord 16 0x5001).fetchWord = .error (.decodeFailure 0x5001) := by decide
/-- FatalConditionsInOrder, FatalConditionsArePrecise: `State.runs` of `CALL` and `RET`, at the depths
where they fail; test_call_overflow, test_ret_underflow, test_decode_failure and test_escape_first reach
each cause. -/
theorem witness_runs_call_and_ret :
    ((depth 16 0x300 z).withFetchWord 16 0x2300).runs (.call 0x300) ∧ (z.withFetchWord 16 0x00EE).runs .ret :=
  ⟨⟨by decide, by decide, by decide, by decide⟩, ⟨by decide, by decide, by decide, by decide⟩⟩
/-- HaltedIsFrozen: a tick, a key edge, and reset. -/
theorem witness_halted :
    (sched [.tick] halted).Inv ∧ (sched [.tick] halted).run = .halted .decodeFailure ∧
    okB (step (sched [.tick] halted)) (sameMachine halted) = true ∧
    okB (step (sched [.keyEdge 0] halted)) (sameMachine halted) = true ∧
    okB (step (sched [.reset] halted)) (fun t => t.run == .running) = true :=
  ⟨sched_inv halted_inv _, by decide, by decide, by decide, by decide⟩
/-- HaltedTurnReportsTheRecord. -/
theorem witness_halted_turn : (sched [.instr] halted).turn = .instr ∧ halted.run = .halted .decodeFailure := by decide
/-- TickStep, SoundFollowsSoundTimer: both run states, both sides of 1. -/
theorem witness_tick :
    (sched [.tick] z).turn = .tick ∧ z.run = .running ∧
    (sched [.tick] waiting).turn = .tick ∧ waiting.run = .awaitingKey 0xF ∧
    okB (step (sched [.tick] (z.setSt 2))) (fun t => t.soundActive) = true ∧
    okB (step (sched [.tick] (z.setSt 1))) (fun t => !t.soundActive) = true := by decide
/-- TicksCountDownToZero: two ticks in a row, then another turn. -/
theorem witness_ticks : ∀ k, k < 2 →
    ((sched [.tick, .tick, .instr] z).inputs.given.getD
      ((sched [.tick, .tick, .instr] z).inputs.count + k) Given.free).turn = some .tick := by decide
/-- TicksKeepComing: nothing fixed, and some turns fixed. -/
theorem witness_no_load : (∀ g ∈ z.inputs.given, ∀ rom, g.turn ≠ some (.load rom)) ∧
    ∀ g ∈ (sched [.instr, .keyEdge 1] z).inputs.given, ∀ rom, g.turn ≠ some (.load rom) := by
  simp [z, State.reset, Inputs.free, sched]
/-- InputsAreParametersOfTheStep: two states with the same inputs of this turn and others later. -/
theorem witness_same_inputs :
    (sched [.tick, .instr] z).turn = (sched [.tick, .reset] z).turn ∧
    (sched [.tick, .instr] z).inputs.draw = (sched [.tick, .reset] z).inputs.draw ∧
    (sched [.tick, .instr] z).inputs.levels = (sched [.tick, .reset] z).inputs.levels ∧
    (sched [.tick, .instr] z).inputs ≠ (sched [.tick, .reset] z).inputs ∧
    okB (step (sched [.tick, .instr] z)) (fun _ => true) = true := ⟨by decide, rfl, rfl, by decide, by decide⟩
/-- KeyWaitCompletesOnEdge, WaitStateEnteredAndLeft. -/
theorem witness_wait :
    (sched [.keyEdge 0xF, .tick] waiting).Inv ∧ (sched [.keyEdge 0xF, .tick] waiting).run = .awaitingKey 0xF ∧
    okB (step (sched [.keyEdge 0xF, .tick] waiting))
      (fun t => t.run == .running && t.getV 0xF == 0xF && t.pc == 0x1000) = true ∧
    okB (step (sched [.reset] waiting)) (fun t => t.run == .running) = true ∧
    okB (step (sched [.tick] waiting)) (fun t => t.run == .awaitingKey 0xF && t.dt == 0) = true ∧
    okB (step (sched [.instr] waiting)) (sameMachine waiting) = true ∧
    okB (step (z.withFetchWord 16 0xF00A)) (fun t => t.run == .awaitingKey 0) = true :=
  ⟨sched_inv waiting_inv _, by decide, by decide, by decide, by decide, by decide, by decide⟩
/-- TickAndKeyEdgeCommute: the two orders. -/
theorem witness_two_orders :
    (sched [.tick, .keyEdge 3] waiting).turn = .tick ∧ (sched [.tick, .keyEdge 3] waiting).moveOn.turn = .keyEdge 3 ∧
    (sched [.keyEdge 3, .tick] waiting).turn = .keyEdge 3 ∧ (sched [.keyEdge 3, .tick] waiting).moveOn.turn = .tick ∧
    Frame [.inputs] (sched [.tick, .keyEdge 3] waiting) (sched [.keyEdge 3, .tick] waiting) :=
  ⟨by decide, by decide, by decide, by decide, State.frame_setInputs _ _⟩
/-- KeyWaitCompletesOnEdge, third clause: an edge in `Running` and in `Halted`. -/
theorem witness_edge_dropped : (∀ x, z.run ≠ .awaitingKey x) ∧ (∀ x, halted.run ≠ .awaitingKey x) ∧
    (sched [.keyEdge 0] halted).turn = .keyEdge 0 := by decide
/-- ResetFromAnyState. -/
theorem witness_reset : (sched [.reset, .tick] halted).turn = .reset := by decide
/-- RomLoad: the longest ROM, one byte more, and a load after the start. -/
theorem witness_load (rom : List Byte) :
    (sched [.load rom] z).turn = .load rom ∧ z.started = false ∧ busy.started = true ∧
    (List.replicate 3583 (0 : Byte)).length ≤ 3583 ∧ 3583 < (List.replicate 3584 (0 : Byte)).length :=
  ⟨rfl, rfl, rfl, Nat.le_of_eq (List.length_replicate ..),
    Nat.lt_of_lt_of_eq (by decide : 3583 < 3584) (List.length_replicate ..).symm⟩
/-- ZeroMemoryRunsOffTheEnd: from the reset state, 1792 steps (T70-2), and at the end of memory, none. -/
theorem witness_zero_memory :
    z.run = .running ∧ z.pc.toNat + 2 * 1792 = 0x1000 ∧ (z.setPc 0x1000).pc.toNat + 2 * 0 = 0x1000 ∧
    (∀ k, k ≤ 1792 → (({ given := List.replicate 1793 { Given.free with turn := some .instr }, count := 0 } :
      Inputs).given.getD (0 + k) Given.free).turn = some .instr) ∧
    ∀ a, z.pc.toNat ≤ a → a ≤ 0xFFF → z.memRead a = 0 := by
  refine ⟨rfl, rfl, rfl, fun k hk => ?_, fun a h1 h2 => ?_⟩
  · show ((List.replicate 1793 { Given.free with turn := some .instr }).getD (0 + k) Given.free).turn = _
    rw [List.getD_replicate _ (by omega)]
  · have h1 : 0x200 ≤ a := h1
    have e : fontBytes.getD (a - fontBase) 0 = 0 :=
      List.getD_eq_default _ _ (by show 80 ≤ a - 0x100; omega)
    show Memory.initialByte (a % 4096) = 0
    rw [Nat.mod_eq_of_lt (by omega), Memory.initialByte, e]
    split <;> rfl
/-- ReadAfterWrite: an address and its alias. EqualReadsMeanEqualMemory: canonical memory. -/
theorem witness_memory : 0x1FFF % 4096 = 0xFFF % 4096 ∧ 0x1000 % 4096 ≠ 0xFFF % 4096 ∧ busy.mem.wf ∧
    busy.mem = [(0xFFE, 1), (0xFFF, 2)] := by decide
/-- StoreSeenByNextFetch: the first and the last pair of registers, the last place. -/
theorem witness_store_seen :
    (z.setI 0x202).i.toNat + 0 = z.pc.toNat + 2 ∧ 0 + 1 ≤ (1 : Nibble).toNat ∧
    ((z.setPc 0xFFC).setI 0xFF0).i.toNat + 14 = (z.setPc 0xFFC).pc.toNat + 2 ∧ 14 + 1 ≤ (0xF : Nibble).toNat ∧
    (z.setPc 0xFFC).pc.toNat ≤ 0xFFC := by decide
/-- SoundFollowsSoundTimer and the other statements about what an instruction did: `exec` answers. -/
theorem witness_exec (x : Nibble) (s : State) : ∃ t, exec (.ldStVx x) s = .next t := ⟨_, rfl⟩
/-- RangeRoundTrip: the registers changed between the store and the load. -/
theorem witness_round_trip (x : Nibble) (s : State) : ∃ t t' u, exec (.ldMemVx x) s = .next t ∧
    t' = t.setV 0 0x55 ∧ t'.i = t.i ∧ (∀ a, t'.memRead a = t.memRead a) ∧ exec (.ldVxMem x) t' = .next u :=
  ⟨_, _, _, rfl, rfl, rfl, fun _ => rfl, rfl⟩
/-- ClearScreen (its last clause): any state with the cleared screen. -/
theorem witness_draw_after_clear (x y n : Nibble) (s : State) : ∃ t t' u, exec .cls s = .next t ∧
    t' = t.setV x 7 ∧ t'.fb = t.fb ∧ exec (.drw x y n) t' = .next u := ⟨_, _, _, rfl, rfl, rfl, rfl⟩
/-- DrawFlipsCoveredPixels: the sprite of glyph 0 covers the pixel (0, 0). -/
theorem witness_covers : (z.setI 0x100).covers 0 1 5 0 0 :=
  ⟨0, 0, by decide, by decide, by decide, by decide, by decide⟩
/-- DrawTwiceRestores: the second draw from the state of the first but for VF. -/
theorem witness_draw_twice (n : Nibble) (s : State) : ∃ t t' u, exec (.drw 0 1 n) s = .next t ∧
    t' = t ∧ t'.fb = t.fb ∧ t'.getV 0 = s.getV 0 ∧ t'.getV 1 = s.getV 1 ∧ t'.i = s.i ∧
    (∀ a, t'.memRead a = s.memRead a) ∧ exec (.drw 0 1 n) t' = .next u :=
  ⟨_, _, _, rfl, rfl, rfl, State.getV_setV_ne (by decide), State.getV_setV_ne (by decide), rfl, fun _ => rfl, rfl⟩
/-- RandomDrawIsFresh, KeySkipsSampleTheKey: inputs the run fixes and inputs it leaves free. -/
theorem witness_inputs : z.inputs.now.draw = none ∧ z.inputs.now.keys = none ∧
    (ports 0xA7 0x8000 z).inputs.now.draw = some 0xA7 ∧
    (ports 0xA7 0x8000 z).inputs.now.keys = some 0x8000 ∧
    (z.withFetchWord 16 0xC00F).runs (.rnd 0 0x0F) ∧
    okB (step (z.withFetchWord 16 0xC00F)) (fun t => t.inputs.count == 1) = true :=
  ⟨rfl, rfl, rfl, rfl, ⟨by decide, by decide, by decide, by decide⟩, by decide⟩
/-- JumpIsCheckedByTheNextFetch: the targets next to the window, followed by the step that halts. -/
theorem witness_jump : z.run = .running ∧ (sched [.instr] z).turn = .instr ∧ (0x1FF : Addr).toNat < 0x200 ∧
    (0xFFF : Addr).toNat = 0xFFF ∧
    okB (step (sched [.instr] (z.setPc 0xFFF))) (fun t => t.halt == ⟨2, 0xFFF, 0⟩) = true ∧
    okB (step (sched [.instr] (z.setPc 0x1FF))) (fun t => t.halt == ⟨2, 0x1FF, 0⟩) = true := by decide
/-- CallPushesReturnAddress, ReturnPopsReturnAddress: the depths where the clauses meet. -/
theorem witness_depths : (depth 15 0x300 z).sp.val < 16 ∧ (depth 16 0x300 z).sp.val = 16 ∧
    (depth 1 0x300 z).sp.val = 0 + 1 ∧ (depth 16 0x300 z).sp.val = 15 + 1 ∧ z.sp.val = 0 := by decide
/-- ReturnUndoesCall: registers and pc changed in between. -/
theorem witness_call_return (nnn : Addr) : ∃ t t', (depth 15 0x300 z).sp.val < 16 ∧
    exec (.call nnn) (depth 15 0x300 z) = .next t ∧ t' = (t.setV 0 7).setPc 0x400 ∧ t'.sp = t.sp ∧
    t'.stack = t.stack := ⟨_, _, by decide, rfl, rfl, rfl, rfl⟩
/-- OnlySixInstructionsWriteTheFlag: VF changes as a flag and as a destination. -/
theorem witness_flag_changes :
    okB (exec (.addReg 0 1) (regs [(0, 0xFF), (1, 1)] z)) (fun t => t.getV vf != z.getV vf) = true ∧
    okB (exec (.ldImm vf 7) z) (fun t => t.getV vf != z.getV vf) = true := by decide
/-- FrameRule: an address that the store does not reach, one byte on either side. -/
theorem witness_frame :
    (∀ k, k < storeCount (.ldBVx 0) → 0x2FF % 4096 ≠ (z.setI 0x300).ea k % 4096) ∧
    (∀ k, k < storeCount (.ldBVx 0) → 0x303 % 4096 ≠ (z.setI 0x300).ea k % 4096) ∧
    mayWriteV 3 (.ldVxMem 2) = false ∧ ¬ ∃ nnn, Instr.ret = .call nnn :=
  ⟨by decide, by decide, by decide, by rintro ⟨_, h⟩; cases h⟩
/-- RegistersChangeOnlyByTheirInstructions: each register does change. -/
theorem witness_changes :
    (z.withFetchWord 16 0xA2F0).turn ≠ .reset ∧ ran z 0xA2F0 (fun t => t.i != z.i) = true ∧
    ran z 0x2300 (fun t => t.sp != z.sp && t.stack != z.stack) = true ∧
    okB (step (sched [.tick] (z.setDt 1))) (fun t => t.dt != 1) = true ∧
    ran (regs [(0, 1)] z) 0xF018 (fun t => t.st != z.st) = true ∧
    ran (z.setI 0x100) 0xD001 (fun t => t.fb != z.fb) = true := by decide
/-- The state of one live entry, with other dead entries. -/
def otherDead : State := { depth 1 0x206 z with stack := (Vector.replicate 16 0x999).set 0 0x206 }

/-- DeadStackEntriesAreUnobservable: two states with different dead entries. -/
theorem witness_dead_entries :
    otherDead = { depth 1 0x206 z with stack := otherDead.stack } ∧ (depth 1 0x206 z).sp.val = 1 ∧
    otherDead.stack[0] = (depth 1 0x206 z).stack[0] ∧ otherDead.stack[1] ≠ (depth 1 0x206 z).stack[1] ∧
    okB (step (sched [.instr] (depth 1 0x206 z))) (fun _ => true) = true := by decide
/-- EveryTurnKeepsInv: invariant states of all three kinds, each with a turn that ends in a next state. -/
theorem witness_invariant : busy.Inv ∧ waiting.Inv ∧ halted.Inv ∧
    okB (step (sched [.instr] busy)) (fun t => t.halt == ⟨2, 0x10FE, 0⟩) = true ∧ okB (step (sched [.instr] waiting)) (fun _ => true) = true ∧
    okB (step (sched [.tick] halted)) (fun _ => true) = true :=
  ⟨busy_inv, waiting_inv, halted_inv, by decide, by decide, by decide⟩

end Sys2Proof.Tests
end

/-! Frames of the state operations and of `exec`, and the frame rule of 00_scope.md R10. -/

section
namespace Sys2Proof.Machine

/-! ### Frames compose -/

theorem Part.same_trans {s t u : State} {p : Part} (hst : p.same s t) (htu : p.same t u) :
    p.same s u := by
  cases p
  case v => exact fun x => (htu x).trans (hst x)
  case mem => exact fun a => (htu a).trans (hst a)
  case stack => exact ⟨htu.1.trans hst.1, htu.2.trans hst.2⟩
  all_goals exact Eq.trans htu hst

/-- What two operations in a row change is what either of them changes. -/
theorem Frame.trans {l m : List Part} {s t u : State} (hst : Frame l s t) (htu : Frame m t u) :
    Frame (l ++ m) s u := by
  intro p hp
  rw [List.mem_append, not_or] at hp
  exact Part.same_trans (hst p hp.1) (htu p hp.2)

theorem Frame.mono {l m : List Part} {s t : State} (h : Frame l s t) (hlm : l ⊆ m) : Frame m s t :=
  fun p hp => h p fun hl => hp (hlm hl)

/-! ### One frame per state operation -/

section
variable (s : State)

theorem State.frame_setV (x : Nibble) (b : Byte) : Frame [.v] s (s.setV x b) := by
  intro p hp; cases p <;> simp_all [Part.same]

theorem State.frame_setI (w : Word) : Frame [.i] s (s.setI w) := by
  intro p hp; cases p <;> simp_all [Part.same]

theorem State.frame_setPc (w : Word) : Frame [.pc] s (s.setPc w) := by
  intro p hp; cases p <;> simp_all [Part.same]

theorem State.frame_setDt (b : Byte) : Frame [.dt] s (s.setDt b) := by
  intro p hp; cases p <;> simp_all [Part.same]

theorem State.frame_setSt (b : Byte) : Frame [.st] s (s.setSt b) := by
  intro p hp; cases p <;> simp_all [Part.same]

theorem State.frame_setFb (f : Framebuffer) : Frame [.fb] s (s.setFb f) := by
  intro p hp; cases p <;> simp_all [Part.same]

theorem State.frame_push (w : Word) (h : s.sp.val < 16) : Frame [.stack] s (s.push w h) := by
  intro p hp; cases p <;> simp_all [Part.same]

theorem State.frame_drop : Frame [.stack] s s.drop := by
  intro p hp; cases p <;> simp_all [Part.same]

theorem State.frame_raiseHalt (c : HaltCause) (op : Word) :
    Frame [.run, .halt] s (s.raiseHalt c op) := by
  intro p hp; cases p <;> simp_all [Part.same]

theorem State.frame_awaitKey (x : Nibble) : Frame [.run] s (s.awaitKey x) := by
  intro p hp; cases p <;> simp_all [Part.same]

theorem State.frame_storeBytes (a : Nat) (f : Nat → Byte) (n : Nat) :
    Frame [.mem] s (s.storeBytes a f n) := by
  obtain ⟨m, hm⟩ := s.storeBytes_eq a f n
  rw [hm]
  intro p hp; cases p <;> simp_all [Part.same, State.getV]

theorem State.frame_loadRange (n : Nat) : Frame [.v] s (s.loadRange n) := by
  obtain ⟨w, hw⟩ := s.loadRange_eq n
  rw [hw]
  intro p hp; cases p <;> simp_all [Part.same, State.memRead]

theorem State.frame_writeFlagged (x : Nibble) (r : Flagged) :
    Frame [.v, .pc] s (s.writeFlagged x r) :=
  (((s.frame_setV x _).trans (State.frame_setV _ vf _)).trans (State.frame_setPc _ _)).mono (by simp)

end

/-! ### What an instruction changes (00_scope.md R10) -/

/-- Every part an instruction's rule does not name is unchanged: its operations change no other. -/
theorem exec_frame {i : Instr} {s t : State} (h : exec i s = .next t) : Frame (partsOf i) s t := by
  cases i
  case call nnn =>
    obtain ⟨hs, rfl⟩ | ⟨-, rfl⟩ := execCall_cases h
    · exact ((s.frame_push _ hs).trans (State.frame_setPc _ _)).mono (by simp [partsOf])
    · exact (s.frame_raiseHalt _ _).mono (by simp [partsOf])
  case ret =>
    obtain ⟨hs, rfl⟩ | ⟨-, rfl⟩ := execRet_cases h
    · exact (s.frame_drop.trans (State.frame_setPc _ _)).mono (by simp [partsOf])
    · exact (s.frame_raiseHalt _ _).mono (by simp [partsOf])
  all_goals injection h with h; subst h
  case ldVxK => exact s.frame_awaitKey _
  case sys | jp | jpV0 | seImm | sneImm | seReg | sneReg | skp | sknp => exact s.frame_setPc _
  case ldImm | addImm | ldReg | or | and | xor | rnd | ldVxDt =>
    exact (s.frame_setV _ _).trans (State.frame_setPc _ _)
  case addReg | sub | shr | subn | shl => exact s.frame_writeFlagged _ _
  case ldVxMem => exact (s.frame_loadRange _).trans (State.frame_setPc _ _)
  case ldBVx | ldMemVx => exact (s.frame_storeBytes _ _ _).trans (State.frame_setPc _ _)
  case ldI | addIVx | ldFVx => exact (s.frame_setI _).trans (State.frame_setPc _ _)
  case ldDtVx => exact (s.frame_setDt _).trans (State.frame_setPc _ _)
  case ldStVx => exact (s.frame_setSt _).trans (State.frame_setPc _ _)
  case cls => exact (s.frame_setFb _).trans (State.frame_setPc _ _)
  case drw =>
    exact (((s.frame_setFb _).trans (State.frame_setV _ vf _)).trans (State.frame_setPc _ _)).mono
      (by simp [partsOf])

/-- A data register that the rule does not name is unchanged. Where the rule names no register at all,
this is the frame. -/
theorem exec_getV {i : Instr} {s t : State} (h : exec i s = .next t) {r : Nibble}
    (hr : mayWriteV r i = false) : t.getV r = s.getV r := by
  have frame : .v ∉ partsOf i → t.getV r = s.getV r := fun hv => exec_frame h .v hv r
  cases i
  case ldImm | addImm | ldReg | or | and | xor | rnd | ldVxDt =>
    injection h with h; subst h
    exact State.getV_setV_ne (by simpa [mayWriteV] using hr)
  case addReg | sub | shr | subn | shl =>
    injection h with h; subst h
    obtain ⟨hx, hf⟩ : r ≠ _ ∧ r ≠ vf := by simpa [mayWriteV] using hr
    rw [State.writeFlagged_getV, if_neg hf, if_neg hx]
  case drw =>
    injection h with h; subst h
    exact State.getV_setV_ne (by simpa [mayWriteV] using hr)
  case ldVxMem x =>
    injection h with h; subst h
    have hx : ¬ r.toNat ≤ x.toNat := by simpa [mayWriteV] using hr
    rw [State.advance_eq, State.setPc_getV, State.loadRange_getV _ _ x.isLt, if_neg (by omega)]
  all_goals exact frame (by simp [partsOf])

/-- A byte outside those an instruction stores is unchanged. Only two instructions store at all. -/
theorem exec_memRead {i : Instr} {s t : State} (h : exec i s = .next t) {a : Nat}
    (ha : ∀ k, k < storeCount i → a % 4096 ≠ s.ea k % 4096) : t.memRead a = s.memRead a := by
  have frame : .mem ∉ partsOf i → t.memRead a = s.memRead a := fun hm => exec_frame h .mem hm a
  cases i
  case ldBVx | ldMemVx =>
    injection h with h; subst h
    exact s.memRead_storeBytes_other (s.ea 0) _ _ a ha
  all_goals exact frame (by simp [partsOf])

/-- A stack entry other than the one a `CALL` pushes is unchanged; `RET` moves SP alone. -/
theorem exec_stack {i : Instr} {s t : State} (h : exec i s = .next t) {k : Nat} (hk : k < 16)
    (hne : (¬ ∃ nnn, i = .call nnn) ∨ k ≠ s.sp.val) : t.stack[k] = s.stack[k] := by
  have frame : .stack ∉ partsOf i → t.stack[k] = s.stack[k] := fun hs => by
    rw [(exec_frame h .stack hs).2]
  cases i
  case call nnn =>
    have hk' : s.sp.val ≠ k := (hne.resolve_left (by simp)).symm
    obtain ⟨hs, rfl⟩ | ⟨-, rfl⟩ := execCall_cases h
    · exact (s.push_stack_get _ hs k hk).trans (if_neg hk')
    · rfl
  case ret => obtain ⟨_, rfl⟩ | ⟨-, rfl⟩ := execRet_cases h <;> rfl
  all_goals exact frame (by simp [partsOf])

end Sys2Proof.Machine

open Sys2Proof Sys2Proof.Machine

/-- Settles O51: the frame of `exec`, then its three refinements inside the registers, memory and the
stack (00_scope.md R10). -/
theorem frameRule : Obligations.FrameRule := fun _ _ _ h =>
  ⟨exec_frame h, fun _ => exec_getV h, fun _ => exec_memRead h, fun _ => exec_stack h⟩
end

/-! The invariant: every state operation keeps it where its side conditions hold, so every instruction,
every event and every turn keeps it. -/

section
namespace Sys2Proof.Machine

/-! ### The addresses that control flow can produce (10_state.md R24) -/

@[simp] theorem zextAddr_toNat (nnn : Addr) : (zextAddr nnn).toNat = nnn.toNat :=
  BitVec.toNat_setWidth_of_le (by decide)

@[simp] theorem zextByte_toNat (b : Byte) : (zextByte b).toNat = b.toNat :=
  BitVec.toNat_setWidth_of_le (by decide)

theorem zextAddr_le (nnn : Addr) : (zextAddr nnn).toNat ≤ 0x10FE := by
  rw [zextAddr_toNat]; omega

/-- A 12-bit and an 8-bit number add up to 0x10FE at most, with no wrap (44_flow_control.md R155). -/
theorem zextAddr_add_zextByte_le (nnn : Addr) (b : Byte) :
    (zextAddr nnn + zextByte b).toNat ≤ 0x10FE := by
  rw [BitVec.toNat_add, zextAddr_toNat, zextByte_toNat]; omega

/-- Behind an instruction in the fetch window: no wrap, and never past 0x1000. -/
theorem State.pc_add_two_of_window {s : State} (hw : s.pcInWindow = true) :
    0x202 ≤ (s.pc + 2).toNat ∧ (s.pc + 2).toNat ≤ 0x1000 := by
  rw [State.pcInWindow_iff] at hw
  rw [BitVec.toNat_add, show (2 : Word).toNat = 2 from rfl]; omega

theorem State.pc_add_four_le_of_window {s : State} (hw : s.pcInWindow = true) :
    (s.pc + 4).toNat ≤ 0x1002 := by
  rw [State.pcInWindow_iff] at hw
  rw [BitVec.toNat_add, show (4 : Word).toNat = 4 from rfl]; omega

/-! ### The halt record in each run state -/

theorem State.haltAgrees_of_running {s : State} (hr : s.run = .running) :
    s.haltAgrees ↔ s.halt = HaltRecord.none := by
  simp [State.haltAgrees, hr]

theorem State.haltAgrees_of_awaitingKey {s : State} {x : Nibble} (hr : s.run = .awaitingKey x) :
    s.haltAgrees ↔ s.halt = HaltRecord.none ∧ s.pcInWindow = true ∧ s.started = true := by
  simp [State.haltAgrees, hr]

theorem State.Inv.record_of_running {s : State} (inv : s.Inv) (hr : s.run = .running) :
    s.halt = HaltRecord.none :=
  (State.haltAgrees_of_running hr).mp inv.agrees

/-- Before the first instruction step a machine neither waits nor has halted. -/
theorem State.Inv.running_of_not_started {s : State} (inv : s.Inv) (hs : s.started = false) :
    s.run = .running := by
  have agrees := inv.agrees
  cases hr : s.run <;> simp_all [State.haltAgrees]

/-! ### The operations -/

namespace State.Inv
section
variable {s : State}

theorem setV (inv : s.Inv) (x : Nibble) (b : Byte) : (s.setV x b).Inv :=
  ⟨inv.memory, inv.address, inv.counter, inv.returns, inv.agrees⟩

theorem setDt (inv : s.Inv) (b : Byte) : (s.setDt b).Inv :=
  ⟨inv.memory, inv.address, inv.counter, inv.returns, inv.agrees⟩

theorem setSt (inv : s.Inv) (b : Byte) : (s.setSt b).Inv :=
  ⟨inv.memory, inv.address, inv.counter, inv.returns, inv.agrees⟩

theorem setFb (inv : s.Inv) (f : Framebuffer) : (s.setFb f).Inv :=
  ⟨inv.memory, inv.address, inv.counter, inv.returns, inv.agrees⟩

theorem setInputs (inv : s.Inv) (n : Inputs) : (s.setInputs n).Inv :=
  ⟨inv.memory, inv.address, inv.counter, inv.returns, inv.agrees⟩

/-- A write of I keeps its low 12 bits only (10_state.md R23). -/
theorem setI (inv : s.Inv) (w : Word) : (s.setI w).Inv where
  memory := inv.memory
  address := by
    rw [State.setI_i, BitVec.toNat_and]
    exact Nat.and_le_right
  counter := inv.counter
  returns := inv.returns
  agrees := inv.agrees

theorem loadRange (inv : s.Inv) (n : Nat) : (s.loadRange n).Inv := by
  obtain ⟨w, hw⟩ := s.loadRange_eq n
  rw [hw]
  exact ⟨inv.memory, inv.address, inv.counter, inv.returns, inv.agrees⟩

theorem storeBytes (inv : s.Inv) (a : Nat) (f : Nat → Byte) (n : Nat) : (s.storeBytes a f n).Inv := by
  have memory := State.storeBytes_wf inv.memory a f n
  obtain ⟨m, hm⟩ := s.storeBytes_eq a f n
  rw [hm] at memory ⊢
  exact ⟨memory, inv.address, inv.counter, inv.returns, inv.agrees⟩

/-- A running machine may go to any `pc` in range: its halt record does not speak of `pc`. -/
theorem setPc (inv : s.Inv) (hr : s.run = .running) {w : Word} (hw : w.toNat ≤ 0x10FE) :
    (s.setPc w).Inv where
  memory := inv.memory
  address := inv.address
  counter := hw
  returns := inv.returns
  agrees := (State.haltAgrees_of_running (s := s.setPc w) hr).mpr (inv.record_of_running hr)

theorem advance (inv : s.Inv) (hr : s.run = .running) (hw : s.pcInWindow = true) : s.advance.Inv :=
  inv.setPc hr (by have := State.pc_add_two_of_window hw; omega)

theorem skipIf (inv : s.Inv) (hr : s.run = .running) (hw : s.pcInWindow = true) (c : Bool) :
    (s.skipIf c).Inv := by
  have two := State.pc_add_two_of_window hw
  have four := State.pc_add_four_le_of_window hw
  refine inv.setPc hr ?_
  split <;> omega

theorem writeFlagged (inv : s.Inv) (hr : s.run = .running) (hw : s.pcInWindow = true) (x : Nibble)
    (f : Flagged) : (s.writeFlagged x f).Inv :=
  ((inv.setV x _).setV vf _).advance hr hw

theorem push (inv : s.Inv) {w : Word} (hw : 0x202 ≤ w.toNat ∧ w.toNat ≤ 0x1000)
    (hs : s.sp.val < 16) : (s.push w hs).Inv where
  memory := inv.memory
  address := inv.address
  counter := inv.counter
  returns k hk hlive := by
    have hlive : k < s.sp.val + 1 := hlive
    rw [State.push_stack_get]
    split
    · exact hw
    · exact inv.returns k hk (by omega)
  agrees := inv.agrees

theorem drop (inv : s.Inv) : s.drop.Inv where
  memory := inv.memory
  address := inv.address
  counter := inv.counter
  returns k hk hlive := inv.returns k hk (by rw [State.drop_sp_val] at hlive; omega)
  agrees := inv.agrees

/-- What a pop delivers is a live entry. -/
theorem top_le (inv : s.Inv) (hs : 0 < s.sp.val) : (s.top hs).toNat ≤ 0x10FE := by
  have := s.sp.isLt
  have entry : (s.top hs).toNat ≤ 0x1000 := (inv.returns (s.sp.val - 1) (by omega) (by omega)).2
  omega

theorem raiseHalt (inv : s.Inv) (hs : s.started = true) (c : HaltCause) (op : Word) :
    (s.raiseHalt c op).Inv :=
  ⟨inv.memory, inv.address, inv.counter, inv.returns, ⟨rfl, rfl, hs⟩⟩

theorem awaitKey (inv : s.Inv) (hr : s.run = .running) (hw : s.pcInWindow = true)
    (hs : s.started = true) (x : Nibble) : (s.awaitKey x).Inv :=
  ⟨inv.memory, inv.address, inv.counter, inv.returns,
    ⟨inv.record_of_running hr, hw, hs⟩⟩

theorem begin (inv : s.Inv) (hr : s.run = .running) : s.begin.Inv :=
  ⟨inv.memory, inv.address, inv.counter, inv.returns,
    (State.haltAgrees_of_running (s := s.begin) hr).mpr (inv.record_of_running hr)⟩

/-! ### Instructions, events, turns -/

/-- An instruction runs in `Running`, in the window, after `begin`: from there it keeps the invariant. -/
theorem of_exec (inv : s.Inv) (hr : s.run = .running) (hw : s.pcInWindow = true)
    (hs : s.started = true) {i : Instr} {t : State} (h : exec i s = .next t) : t.Inv := by
  cases i
  case call nnn =>
    obtain ⟨hsp, rfl⟩ | ⟨-, rfl⟩ := execCall_cases h
    · exact (inv.push (State.pc_add_two_of_window hw) hsp).setPc hr (zextAddr_le nnn)
    · exact inv.raiseHalt hs _ _
  case ret =>
    obtain ⟨hsp, rfl⟩ | ⟨-, rfl⟩ := execRet_cases h
    · exact inv.drop.setPc hr (inv.top_le hsp)
    · exact inv.raiseHalt hs _ _
  all_goals injection h with h; subst h
  case ldVxK => exact inv.awaitKey hr hw hs _
  case sys => exact inv.advance hr hw
  case jp => exact inv.setPc hr (zextAddr_le _)
  case jpV0 => exact inv.setPc hr (zextAddr_add_zextByte_le _ _)
  case seImm | sneImm | seReg | sneReg | skp | sknp => exact inv.skipIf hr hw _
  case ldImm | addImm | ldReg | or | and | xor | rnd | ldVxDt => exact (inv.setV _ _).advance hr hw
  case addReg | sub | shr | subn | shl => exact inv.writeFlagged hr hw _ _
  case ldI | addIVx | ldFVx => exact (inv.setI _).advance hr hw
  case ldDtVx => exact (inv.setDt _).advance hr hw
  case ldStVx => exact (inv.setSt _).advance hr hw
  case cls => exact (inv.setFb _).advance hr hw
  case drw => exact ((inv.setFb _).setV vf _).advance hr hw
  case ldVxMem x =>
    obtain ⟨w, hv⟩ := s.loadRange_eq (x.toNat + 1)
    exact (inv.loadRange _).advance (by rw [hv]; exact hr) (by rw [hv]; exact hw)
  case ldBVx | ldMemVx =>
    obtain ⟨m, hm⟩ := s.storeBytes_eq (s.ea 0) _ _
    exact (inv.storeBytes _ _ _).advance (by rw [hm]; exact hr) (by rw [hm]; exact hw)

theorem of_instrStep (inv : s.Inv) (hr : s.run = .running) (hs : s.started = true) {t : State}
    (h : s.instrStep = .next t) : t.Inv := by
  obtain ⟨-, rfl⟩ | ⟨-, -, rfl⟩ | ⟨i, hw, -, h⟩ := State.instrStep_cases h
  · exact inv.raiseHalt hs _ _
  · exact inv.raiseHalt hs _ _
  · exact inv.of_exec hr hw hs h

theorem tick (inv : s.Inv) : s.tick.Inv := by
  unfold State.tick
  split
  · exact ⟨inv.memory, inv.address, inv.counter, inv.returns, inv.agrees⟩
  · exact ⟨inv.memory, inv.address, inv.counter, inv.returns, inv.agrees⟩
  · exact inv

/-- The key edge that ends a wait steps over an instruction in the window. -/
theorem keyEdge (inv : s.Inv) (k : Nibble) : (s.keyEdge k).Inv := by
  unfold State.keyEdge
  split
  · rename_i x hr
    obtain ⟨record, hw, -⟩ := (State.haltAgrees_of_awaitingKey hr).mp inv.agrees
    have counter := State.pc_add_two_of_window hw
    exact ⟨inv.memory, inv.address, show (s.pc + 2).toNat ≤ 0x10FE by omega, inv.returns, record⟩
  · exact inv
  · exact inv

theorem reset : State.reset.Inv where
  memory := ⟨.nil, by simp [State.reset]⟩
  address := by decide
  counter := by decide
  returns _ _ live := absurd live (Nat.not_lt_zero _)
  agrees := rfl

/-- A load comes before the first instruction step, so the machine is still `Running`. -/
theorem placeRom (inv : s.Inv) (hs : s.started = false) (rom : List Byte) : (s.placeRom rom).Inv := by
  have stored := inv.storeBytes Config.programBase (fun k => rom.getD k 0) rom.length
  obtain ⟨m, hm⟩ := s.storeBytes_eq Config.programBase (fun k => rom.getD k 0) rom.length
  have hr : (s.placeRom rom).run = .running := by
    rw [State.placeRom, hm]; exact inv.running_of_not_started hs
  have record : (s.placeRom rom).halt = HaltRecord.none := by
    rw [State.placeRom, hm]
    exact inv.record_of_running (inv.running_of_not_started hs)
  exact ⟨stored.memory, stored.address, show (0x0200 : Word).toNat ≤ 0x10FE by decide,
    fun _ _ live => absurd live (Nat.not_lt_zero _), (State.haltAgrees_of_running hr).mpr record⟩

theorem of_step (inv : s.Inv) {t : State} (h : step s = .next t) : t.Inv := by
  obtain ⟨-, hr, u, hu, rfl⟩ | ⟨-, -, rfl⟩ | ⟨-, rfl⟩ | ⟨k, -, rfl⟩ | ⟨-, rfl⟩ | ⟨rom, -, hs, -, rfl⟩ :=
    step_cases h
  · exact ((inv.begin hr).of_instrStep hr rfl hu).setInputs _
  · exact inv.setInputs _
  · exact inv.tick.setInputs _
  · exact (inv.keyEdge k).setInputs _
  · exact (reset.setInputs s.inputs).setInputs _
  · exact (inv.placeRom hs rom).setInputs _

end
end State.Inv
end Sys2Proof.Machine

open Sys2Proof Sys2Proof.Machine

/-- Settles O56: the invariant over each kind of turn. -/
theorem everyTurnKeepsInv : Obligations.EveryTurnKeepsInv := fun _ _ inv h => inv.of_step h

/-- Settles O57. -/
theorem resetMeetsInv : Obligations.ResetMeetsInv := State.Inv.reset
end

/-! What a turn can see: ST, dead stack entries and the inputs of other turns are carried along and decide
nothing. One simulation says so of all three. -/

section
namespace Sys2Proof.Machine

/-! ### Hidden parts -/

/-- The parts of the state that a turn does not read, or does not read in full: ST, the stack with its
dead entries, the inputs with those of other turns. -/
structure Hidden where
  st : Byte
  stack : Vector Word 16
  inputs : Inputs

/-- The state with other hidden parts. -/
def State.withHidden (s : State) (g : Hidden) : State :=
  { s with st := g.st, stack := g.stack, inputs := g.inputs }

/-- To the turn that `s` takes the hidden parts `g` look like those of `s`: the live stack entries, the
random byte and the key levels are the same. -/
structure Hidden.LooksLike (g : Hidden) (s : State) : Prop where
  live : ∀ (k : Nat) (hk : k < 16), k < s.sp.val → g.stack[k] = s.stack[k]
  draw : g.inputs.draw = s.inputs.draw
  levels : g.inputs.levels = s.inputs.levels

/-- While the machine goes from `s` to `t`, the one with the hidden parts `g` comes to the hidden parts
`g'`: live entries are equal again, ST and the stack are equal if they were, the inputs are not written. -/
structure Hidden.Follows (s t : State) (g g' : Hidden) : Prop where
  live : ∀ (k : Nat) (hk : k < 16), k < t.sp.val → g'.stack[k] = t.stack[k]
  st : g.st = s.st → g'.st = t.st
  stack : g.stack = s.stack → g'.stack = t.stack
  inputs : g'.inputs = g.inputs

/-- `o` is the next state `t` with hidden parts that follow. -/
def Simulates (s t : State) (g : Hidden) (o : Host.Outcome State Fault Refusal) : Prop :=
  ∃ g', o = .next (t.withHidden g') ∧ Hidden.Follows s t g g'

section
variable {s t : State} {g : Hidden}

/-- A turn that writes neither ST nor the stack and does not raise SP leaves the hidden parts alone. -/
theorem Hidden.LooksLike.follows (like : g.LooksLike s) (hsp : t.sp.val ≤ s.sp.val) (hst : t.st = s.st)
    (hstack : t.stack = s.stack) : Hidden.Follows s t g g where
  live k hk hlive := by rw [hstack]; exact like.live k hk (by omega)
  st h := h.trans hst.symm
  stack h := h.trans hstack.symm
  inputs := rfl

/-! ### What the operations read -/

theorem State.storeBytes_withHidden (s : State) (g : Hidden) (a : Nat) (f : Nat → Byte) (n : Nat) :
    (s.withHidden g).storeBytes a f n = (s.storeBytes a f n).withHidden g := by
  unfold State.storeBytes
  exact List.foldl_hom (State.withHidden · g) (g₁ := fun t k => t.memWrite (a + k) (f k)) (fun _ _ => rfl)

theorem State.loadRange_withHidden (s : State) (g : Hidden) (n : Nat) :
    (s.withHidden g).loadRange n = (s.loadRange n).withHidden g := by
  unfold State.loadRange
  exact List.foldl_hom (State.withHidden · g)
    (g₁ := fun t k => t.setV (BitVec.ofNat 4 k) (t.memRead (t.ea k))) (fun _ _ => rfl)

theorem State.isKeyDown_withHidden (like : g.LooksLike s) (k : Nibble) :
    (s.withHidden g).isKeyDown k = s.isKeyDown k :=
  congrArg (BitVec.getLsbD · k.toNat) like.levels

/-- A pop delivers a live entry. -/
theorem State.top_withHidden (like : g.LooksLike s) (hs : 0 < s.sp.val) :
    (s.withHidden g).top hs = s.top hs :=
  like.live (s.sp.val - 1) (by have := s.sp.isLt; omega) (by omega)

/-! ### The simulation -/

/-- `CALL` pushes the same word on both stacks. -/
theorem execCall_simulates (like : g.LooksLike s) {nnn : Addr} (h : execCall nnn s = .next t) :
    Simulates s t g (execCall nnn (s.withHidden g)) := by
  obtain ⟨hs, rfl⟩ | ⟨hs, rfl⟩ := execCall_cases h
  · refine ⟨{ g with stack := g.stack.set s.sp.val (s.pc + 2) hs }, dif_pos hs,
      fun k hk hlive => ?_, id, fun e => congrArg (Vector.set · s.sp.val (s.pc + 2) hs) e, rfl⟩
    have hlive : k < s.sp.val + 1 := hlive
    rw [State.setPc_stack, State.push_stack_get, Vector.getElem_set]
    split
    · rfl
    · exact like.live k hk (by omega)
  · exact ⟨g, dif_neg (show ¬ s.sp.val < 16 by omega), like.follows le_rfl rfl rfl⟩

/-- `RET` reads a live entry. -/
theorem execRet_simulates (like : g.LooksLike s) (h : execRet s = .next t) :
    Simulates s t g (execRet (s.withHidden g)) := by
  obtain ⟨hs, rfl⟩ | ⟨hs, rfl⟩ := execRet_cases h
  · refine ⟨g, (dif_pos hs).trans ?_, like.follows (Nat.sub_le _ 1) rfl rfl⟩
    rw [State.top_withHidden like hs]
    rfl
  · exact ⟨g, dif_neg (show ¬ 0 < s.sp.val by omega), like.follows le_rfl rfl rfl⟩

/-- Every instruction: `CALL` and `RET` use the stack, `LD ST, Vx` writes ST, `RND`, `SKP` and `SKNP` read
the inputs of this turn, the others touch no hidden part. -/
theorem exec_simulates (like : g.LooksLike s) {i : Instr} (h : exec i s = .next t) :
    Simulates s t g (exec i (s.withHidden g)) := by
  cases i
  case call => exact execCall_simulates like h
  case ret => exact execRet_simulates like h
  all_goals injection h with h; subst h
  case ldStVx x => exact ⟨{ g with st := s.getV x }, rfl, like.live, fun _ => rfl, id, rfl⟩
  case rnd x nn =>
    refine ⟨g, ?_, like.follows le_rfl rfl rfl⟩
    exact congrArg (fun d => Host.Outcome.next ((s.withHidden g).setV x (d &&& nn)).advance) like.draw
  case skp x =>
    refine ⟨g, ?_, like.follows le_rfl rfl rfl⟩
    exact congrArg (fun c => Host.Outcome.next ((s.withHidden g).skipIf c))
      (State.isKeyDown_withHidden like _)
  case sknp x =>
    refine ⟨g, ?_, like.follows le_rfl rfl rfl⟩
    exact congrArg (fun c => Host.Outcome.next ((s.withHidden g).skipIf (!c)))
      (State.isKeyDown_withHidden like _)
  case ldVxMem x =>
    obtain ⟨w, hw⟩ := s.loadRange_eq (x.toNat + 1)
    refine ⟨g, ?_, like.follows ?_ ?_ ?_⟩
    · exact congrArg (fun u => Host.Outcome.next u.advance) (s.loadRange_withHidden g (x.toNat + 1))
    all_goals rw [hw]; rfl
  case ldBVx | ldMemVx =>
    obtain ⟨m, hm⟩ := s.storeBytes_eq (s.ea 0) _ _
    refine ⟨g, ?_, like.follows ?_ ?_ ?_⟩
    · exact congrArg (fun u => Host.Outcome.next u.advance) (s.storeBytes_withHidden g (s.ea 0) _ _)
    all_goals rw [hm]; rfl
  all_goals exact ⟨g, rfl, like.follows le_rfl rfl rfl⟩

@[simp] theorem State.withHidden_run (s : State) (g : Hidden) : (s.withHidden g).run = s.run := rfl
@[simp] theorem State.withHidden_started (s : State) (g : Hidden) :
    (s.withHidden g).started = s.started := rfl
@[simp] theorem State.withHidden_pcInWindow (s : State) (g : Hidden) :
    (s.withHidden g).pcInWindow = s.pcInWindow := rfl
@[simp] theorem State.withHidden_fetchWord (s : State) (g : Hidden) :
    (s.withHidden g).fetchWord = s.fetchWord := rfl
@[simp] theorem State.begin_withHidden (s : State) (g : Hidden) :
    (s.withHidden g).begin = s.begin.withHidden g := rfl
@[simp] theorem State.raiseHalt_withHidden (s : State) (g : Hidden) (c : HaltCause) (op : Word) :
    (s.withHidden g).raiseHalt c op = (s.raiseHalt c op).withHidden g := rfl

theorem State.instrStep_simulates (like : g.LooksLike s) (h : s.instrStep = .next t) :
    Simulates s t g (s.withHidden g).instrStep := by
  obtain ⟨hw, rfl⟩ | ⟨hw, ⟨e, hd⟩, rfl⟩ | ⟨i, hw, hd, h⟩ := State.instrStep_cases h
  · exact ⟨g, by simp [State.instrStep, hw], like.follows le_rfl rfl rfl⟩
  · exact ⟨g, by simp [State.instrStep, hw, hd], like.follows le_rfl rfl rfl⟩
  · simpa [State.instrStep, hw, hd] using exec_simulates like h

/-- A tick counts both ST down, unless the machine has halted. -/
theorem State.tick_simulates (like : g.LooksLike s) :
    Simulates s s.tick g (.next (s.withHidden g).tick) := by
  unfold State.tick
  cases hr : s.run with
  | running | awaitingKey =>
    exact ⟨{ g with st := countDown g.st }, by simp only [State.withHidden_run, hr]; rfl, like.live,
      congrArg countDown, id, rfl⟩
  | halted => exact ⟨g, by simp only [State.withHidden_run, hr], like.follows le_rfl rfl rfl⟩

theorem State.keyEdge_simulates (like : g.LooksLike s) (k : Nibble) :
    Simulates s (s.keyEdge k) g (.next ((s.withHidden g).keyEdge k)) := by
  unfold State.keyEdge
  cases hr : s.run with
  | awaitingKey => exact ⟨g, by simp only [State.withHidden_run, hr]; rfl, like.follows le_rfl rfl rfl⟩
  | running | halted => exact ⟨g, by simp only [State.withHidden_run, hr], like.follows le_rfl rfl rfl⟩

/-- A load leaves no entry live. -/
theorem State.placeRom_simulates (s : State) (g : Hidden) (rom : List Byte) :
    Simulates s (s.placeRom rom) g (.next ((s.withHidden g).placeRom rom)) := by
  obtain ⟨m, hm⟩ := s.storeBytes_eq Config.programBase (fun k => rom.getD k 0) rom.length
  refine ⟨g, ?_, fun _ _ hlive => absurd hlive (Nat.not_lt_zero _), ?_, ?_, rfl⟩
  · rw [State.placeRom, State.placeRom, State.storeBytes_withHidden]; rfl
  · rw [State.placeRom, hm]; exact id
  · rw [State.placeRom, hm]; exact id

/-- Every turn of every agent. -/
theorem State.takeTurn_simulates (like : g.LooksLike s) (hturn : (s.withHidden g).turn = s.turn)
    (h : s.takeTurn = .next t) : Simulates s t g (s.withHidden g).takeTurn := by
  obtain ⟨ht, hr, h⟩ | ⟨ht, ⟨x, hr⟩, rfl⟩ | ⟨ht, rfl⟩ | ⟨k, ht, rfl⟩ | ⟨ht, rfl⟩ | ⟨rom, ht, h⟩ :=
    State.takeTurn_cases h
  all_goals simp only [State.takeTurn, hturn, ht]
  · have like' : g.LooksLike s.begin := ⟨like.live, like.draw, like.levels⟩
    obtain ⟨g', e, follows⟩ := State.instrStep_simulates like' h
    refine ⟨g', ?_, follows.live, follows.st, follows.stack, follows.inputs⟩
    simp only [State.interpTurn, State.withHidden_run, hr, State.begin_withHidden, e]
  · refine ⟨g, ?_, like.follows le_rfl rfl rfl⟩
    simp only [State.interpTurn, State.withHidden_run, hr]
  · exact State.tick_simulates like
  · exact State.keyEdge_simulates like k
  · exact ⟨⟨State.reset.st, State.reset.stack, g.inputs⟩, rfl, fun _ _ _ => rfl, fun _ => rfl,
      fun _ => rfl, rfl⟩
  · obtain ⟨hs, hl, rfl⟩ := State.hostLoad_cases h
    simpa [State.hostLoad, hs, Nat.not_lt.mpr hl] using State.placeRom_simulates s g rom

/-- Two states that differ in their inputs only, and not in those of this turn, go to states that differ
in their inputs only. -/
theorem step_setInputs {n : Inputs} (hturn : (s.setInputs n).turn = s.turn)
    (hdraw : n.draw = s.inputs.draw) (hlevels : n.levels = s.inputs.levels) (h : step s = .next t) :
    step (s.setInputs n) = .next (t.setInputs n.moveOn) := by
  obtain ⟨u, hu, rfl⟩ := step_next_iff.mp h
  obtain ⟨⟨st, stack, inputs⟩, e, follows⟩ :=
    State.takeTurn_simulates (g := ⟨s.st, s.stack, n⟩) ⟨fun _ _ _ => rfl, hdraw, hlevels⟩ hturn hu
  obtain rfl : st = u.st := follows.st rfl
  obtain rfl : stack = u.stack := follows.stack rfl
  obtain rfl : inputs = n := follows.inputs
  exact step_next_iff.mpr ⟨_, e, rfl⟩

end
end Sys2Proof.Machine

open Sys2Proof Sys2Proof.Machine

/-- Settles O14: a step moves the inputs on, it may be offered any, and the simulation with equal ST and
stack says that it depends on those of its turn alone. -/
theorem inputsAreParametersOfTheStep : Obligations.InputsAreParametersOfTheStep := by
  refine ⟨fun s t h => ?_, fun s turn draw keys => ?_, fun s s' t e hturn hdraw hlevels h => ?_,
    fun s t h => ?_⟩
  · rw [step_inputs h]; exact ⟨rfl, rfl⟩
  · exact ⟨s.offer_turn _ _ _, s.offer_draw _ _ _, s.offer_levels _ _ _, s.frame_setInputs _⟩
  · rw [e] at hturn ⊢
    exact step_setInputs hturn hdraw hlevels h
  · exact ⟨_, step_setInputs (s.offer_turn _ _ _) (s.offer_draw _ _ _) (s.offer_levels _ _ _) h, rfl⟩

/-- Settles O54: the simulation with another ST and the same stack and inputs. -/
theorem soundTimerIsNeverRead : Obligations.SoundTimerIsNeverRead := by
  intro i s t b h
  obtain ⟨⟨st, stack, inputs⟩, e, follows⟩ :=
    exec_simulates (g := ⟨b, s.stack, s.inputs⟩) ⟨fun _ _ _ => rfl, rfl, rfl⟩ h
  obtain rfl : stack = t.stack := follows.stack rfl
  obtain rfl : inputs = t.inputs := follows.inputs.trans (exec_inputs h).symm
  exact ⟨_, e, rfl⟩

/-- Settles O55: the simulation with other dead entries and the same ST and inputs. -/
theorem deadStackEntriesAreUnobservable : Obligations.DeadStackEntriesAreUnobservable := by
  intro s s' t e hlive h
  obtain ⟨u, hu, rfl⟩ := step_next_iff.mp h
  obtain ⟨⟨st, stack, inputs⟩, e', follows⟩ :=
    State.takeTurn_simulates (g := ⟨s.st, s'.stack, s.inputs⟩) ⟨hlive, rfl, rfl⟩
      (State.turn_congr rfl rfl) hu
  obtain rfl : st = u.st := follows.st rfl
  obtain rfl : inputs = u.inputs := follows.inputs.trans (State.takeTurn_inputs hu).symm
  have step' : step s' = .next (u.withHidden ⟨u.st, stack, u.inputs⟩).moveOn := by
    rw [e]; exact step_next_iff.mpr ⟨_, e', rfl⟩
  exact ⟨_, step', rfl, follows.live⟩
end

/-! What a turn changes: the frames of the events beside the frame of `exec`, and which turns and
instructions name which part. -/

section
namespace Sys2Proof.Machine

/-- The parts a turn may change beside those of the instruction it runs: the interpreter's turn may halt,
every turn goes on to the next inputs, reset may change everything. -/
def partsOfTurn : Turn → List Part
  | .instr => [.run, .halt, .inputs, .started]
  | .tick => [.dt, .st, .inputs]
  | .keyEdge _ => [.v, .pc, .run, .inputs]
  | .reset => [.v, .i, .pc, .stack, .dt, .st, .mem, .run, .halt, .fb, .inputs, .started]
  | .load _ => [.mem, .pc, .stack, .inputs]

/-! ### Frames of the events -/

theorem Frame.refl (l : List Part) (s : State) : Frame l s s := by
  intro p _; cases p <;> simp [Part.same]

section
variable (s : State)

theorem State.frame_begin : Frame [.started] s s.begin := by
  intro p hp; cases p <;> simp_all [Part.same]

theorem State.frame_tick : Frame [.dt, .st] s s.tick := by
  unfold State.tick
  split
  · exact (s.frame_setDt (countDown s.dt)).trans (State.frame_setSt _ (countDown s.st))
  · exact (s.frame_setDt (countDown s.dt)).trans (State.frame_setSt _ (countDown s.st))
  · exact .refl _ s

theorem State.frame_keyEdge (k : Nibble) : Frame [.v, .pc, .run] s (s.keyEdge k) := by
  unfold State.keyEdge
  split
  · intro p hp; cases p <;> simp_all [Part.same, State.memRead]
  · exact .refl _ s
  · exact .refl _ s

theorem State.frame_placeRom (rom : List Byte) : Frame [.mem, .pc, .stack] s (s.placeRom rom) := by
  obtain ⟨m, hm⟩ := s.storeBytes_eq Config.programBase (fun k => rom.getD k 0) rom.length
  rw [State.placeRom, hm]
  intro p hp; cases p <;> simp_all [Part.same, State.getV]

end

/-! ### Frame of a turn -/

section
variable {s t : State}

theorem State.frame_instrStep (h : s.instrStep = .next t) :
    Frame [.run, .halt] s t ∨
      ∃ i, s.pcInWindow = true ∧ decodeWord s.fetchWord = .ok i ∧ Frame (partsOf i) s t := by
  obtain ⟨-, rfl⟩ | ⟨-, -, rfl⟩ | ⟨i, hw, hd, h⟩ := State.instrStep_cases h
  · exact .inl (s.frame_raiseHalt _ _)
  · exact .inl (s.frame_raiseHalt _ _)
  · exact .inr ⟨i, hw, hd, exec_frame h⟩

/-- A step changes the parts its turn may change, and if it runs an instruction, also those of the
instruction. -/
theorem step_frame (h : step s = .next t) :
    Frame (partsOfTurn s.turn) s t ∨
      ∃ i, s.runs i ∧ Frame (partsOfTurn s.turn ++ partsOf i) s t := by
  obtain ⟨ht, hr, u, hu, rfl⟩ | ⟨ht, -, rfl⟩ | ⟨ht, rfl⟩ | ⟨k, ht, rfl⟩ | ⟨ht, rfl⟩ |
    ⟨rom, ht, -, -, rfl⟩ := step_cases h
  · have around {l : List Part} (hl : Frame l s.begin u) :
        Frame ([.started] ++ l ++ [.inputs]) s u.moveOn :=
      (s.frame_begin.trans hl).trans (u.frame_setInputs _)
    obtain hl | ⟨i, hw, hd, hl⟩ := State.frame_instrStep hu
    · refine .inl ((around hl).mono ?_)
      simp [ht, partsOfTurn]
    · refine .inr ⟨i, ⟨ht, hr, hw, hd⟩, (around hl).mono fun p => ?_⟩
      simp only [ht, partsOfTurn, List.mem_append, List.mem_cons, List.not_mem_nil]
      tauto
  · exact .inl ((s.frame_setInputs _).mono (by simp [ht, partsOfTurn]))
  · exact .inl ((s.frame_tick.trans (State.frame_setInputs _ _)).mono (by simp [ht, partsOfTurn]))
  · exact .inl (((s.frame_keyEdge k).trans (State.frame_setInputs _ _)).mono
      (by simp [ht, partsOfTurn]))
  · refine .inl fun p hp => absurd ?_ hp
    cases p <;> simp [ht, partsOfTurn]
  · exact .inl (((s.frame_placeRom rom).trans (State.frame_setInputs _ _)).mono
      (by simp [ht, partsOfTurn]))

/-- A part that a step changes is one its turn may change, or one of the instruction it runs. -/
theorem step_changes (h : step s = .next t) {p : Part} (hp : ¬ p.same s t) :
    p ∈ partsOfTurn s.turn ∨ ∃ i, s.runs i ∧ p ∈ partsOf i := by
  obtain hl | ⟨i, hi, hl⟩ := step_frame h
  · exact .inl (by_contra fun hn => hp (hl p hn))
  · have named : p ∈ partsOfTurn s.turn ++ partsOf i := by_contra fun hn => hp (hl p hn)
    exact (List.mem_append.mp named).imp_right fun hn => ⟨i, hi, hn⟩

end

/-! ### Which instruction and which turn names a part -/

section
variable {i : Instr} {a : Turn}

theorem i_mem_partsOf (h : .i ∈ partsOf i) :
    ∃ x nnn, i = .ldI nnn ∨ i = .addIVx x ∨ i = .ldFVx x := by
  cases i <;> simp_all [partsOf]

theorem stack_mem_partsOf (h : .stack ∈ partsOf i) : (∃ nnn, i = .call nnn) ∨ i = .ret := by
  cases i <;> simp_all [partsOf]

theorem dt_mem_partsOf (h : .dt ∈ partsOf i) : ∃ x, i = .ldDtVx x := by
  cases i <;> simp_all [partsOf]

theorem st_mem_partsOf (h : .st ∈ partsOf i) : ∃ x, i = .ldStVx x := by
  cases i <;> simp_all [partsOf]

theorem fb_mem_partsOf (h : .fb ∈ partsOf i) : i = .cls ∨ ∃ x y n, i = .drw x y n := by
  cases i <;> simp_all [partsOf]

theorem i_mem_partsOfTurn (h : .i ∈ partsOfTurn a) : a = .reset := by
  cases a <;> simp_all [partsOfTurn]

theorem stack_mem_partsOfTurn (h : .stack ∈ partsOfTurn a) : a = .reset ∨ ∃ rom, a = .load rom := by
  cases a <;> simp_all [partsOfTurn]

theorem dt_mem_partsOfTurn (h : .dt ∈ partsOfTurn a) : a = .reset ∨ a = .tick := by
  cases a <;> simp_all [partsOfTurn]

theorem st_mem_partsOfTurn (h : .st ∈ partsOfTurn a) : a = .reset ∨ a = .tick := by
  cases a <;> simp_all [partsOfTurn]

theorem fb_mem_partsOfTurn (h : .fb ∈ partsOfTurn a) : a = .reset := by
  cases a <;> simp_all [partsOfTurn]

end
end Sys2Proof.Machine

open Sys2Proof Sys2Proof.Machine

/-- Settles O53: each part that changed is named by the turn or by the instruction it runs. -/
theorem registersChangeOnlyByTheirInstructions :
    Obligations.RegistersChangeOnlyByTheirInstructions := by
  intro s t h hreset
  refine ⟨fun hi => ?_, fun hstack => ?_, fun hdt => ?_, fun hst => ?_, fun hfb => ?_⟩
  · obtain ht | ⟨i, hrun, hp⟩ := step_changes h (p := .i) hi
    · exact absurd (i_mem_partsOfTurn ht) hreset
    · obtain ⟨x, nnn, rfl | rfl | rfl⟩ := i_mem_partsOf hp
      · exact ⟨x, nnn, .inl hrun⟩
      · exact ⟨x, nnn, .inr (.inl hrun)⟩
      · exact ⟨x, nnn, .inr (.inr hrun)⟩
  · obtain ht | ⟨i, hrun, hp⟩ := step_changes h (p := .stack) (not_and_or.mpr hstack)
    · exact .inr (.inr ((stack_mem_partsOfTurn ht).resolve_left hreset))
    · obtain ⟨nnn, rfl⟩ | rfl := stack_mem_partsOf hp
      · exact .inl ⟨nnn, hrun⟩
      · exact .inr (.inl hrun)
  · obtain ht | ⟨i, hrun, hp⟩ := step_changes h (p := .dt) hdt
    · exact .inl ((dt_mem_partsOfTurn ht).resolve_left hreset)
    · obtain ⟨x, rfl⟩ := dt_mem_partsOf hp
      exact .inr ⟨x, hrun⟩
  · obtain ht | ⟨i, hrun, hp⟩ := step_changes h (p := .st) hst
    · exact .inl ((st_mem_partsOfTurn ht).resolve_left hreset)
    · obtain ⟨x, rfl⟩ := st_mem_partsOf hp
      exact .inr ⟨x, hrun⟩
  · obtain ht | ⟨i, hrun, hp⟩ := step_changes h (p := .fb) hfb
    · exact absurd (fb_mem_partsOfTurn ht) hreset
    · obtain rfl | ⟨x, y, n, rfl⟩ := fb_mem_partsOf hp
      · exact .inl hrun
      · exact .inr ⟨x, y, n, hrun⟩
end

/-! The flag register VF (10_state.md R22): which instructions leave a flag in it, and which name it. -/

section
namespace Sys2Proof.Machine

/-- The six instructions that write VF with a flag (10_state.md R22). -/
def IsFlagging (i : Instr) : Prop :=
  (∃ x y, i = .addReg x y ∨ i = .sub x y ∨ i = .shr x y ∨ i = .subn x y ∨ i = .shl x y) ∨
    ∃ x y n, i = .drw x y n

theorem flagByte_eq_zero_or_one (b : Bool) : flagByte b = 0x00 ∨ flagByte b = 0x01 := by
  cases b
  · exact .inl rfl
  · exact .inr rfl

theorem State.writeFlagged_getV_vf (s : State) (x : Nibble) (f : Flagged) :
    (s.writeFlagged x f).getV vf = flagByte f.flag := by
  rw [State.writeFlagged_getV, if_pos rfl]

/-- A flagging instruction leaves a flag in VF, also where its destination is VF. -/
theorem exec_getV_vf_of_isFlagging {i : Instr} {s t : State} (hi : IsFlagging i)
    (h : exec i s = .next t) : ∃ b, t.getV vf = flagByte b := by
  obtain ⟨x, y, rfl | rfl | rfl | rfl | rfl⟩ | ⟨x, y, n, rfl⟩ := hi
  all_goals injection h with h; subst h
  case inr => exact ⟨_, State.getV_setV_same _ vf _⟩
  all_goals exact ⟨_, s.writeFlagged_getV_vf x _⟩

/-- The range load reaches VF only as its last register. -/
theorem eq_vf_of_le {x : Nibble} (h : vf.toNat ≤ x.toNat) : x = vf :=
  BitVec.eq_of_toNat_eq (Nat.le_antisymm (Nat.le_of_lt_succ x.isLt) h)

/-- An instruction that may write VF is a flagging one or names VF. -/
theorem isFlagging_or_names_vf {i : Instr} (h : mayWriteV vf i = true) :
    IsFlagging i ∨
      ∃ nn y, i = .ldImm vf nn ∨ i = .addImm vf nn ∨ i = .rnd vf nn ∨ i = .ldReg vf y ∨
        i = .or vf y ∨ i = .and vf y ∨ i = .xor vf y ∨ i = .ldVxDt vf ∨ i = .ldVxMem vf := by
  cases i
  case addReg | sub | shr | subn | shl | drw => exact .inl (by simp [IsFlagging])
  case ldImm | addImm | rnd | ldReg | or | and | xor | ldVxDt =>
    obtain rfl : vf = _ := by simpa [mayWriteV] using h
    exact .inr (by simp)
  case ldVxMem x =>
    obtain rfl : x = vf := eq_vf_of_le (by simpa [mayWriteV] using h)
    exact .inr (by simp)
  all_goals exact absurd h (by simp [mayWriteV])

end Sys2Proof.Machine

open Sys2Proof Sys2Proof.Machine

/-- Settles O52: a flagging instruction leaves a flag byte; one that changes VF may write it. -/
theorem onlySixInstructionsWriteTheFlag : Obligations.OnlySixInstructionsWriteTheFlag := by
  intro i s t h
  refine ⟨fun hi => ?_, fun hne => ?_⟩
  · obtain ⟨b, hb⟩ := exec_getV_vf_of_isFlagging hi h
    rw [hb]; exact flagByte_eq_zero_or_one b
  · have writes : mayWriteV vf i = true :=
      eq_true_of_ne_false fun hf => hne (exec_getV h hf)
    exact or_assoc.mp (isFlagging_or_names_vf writes)
end

/-! The values after reset (10_state.md R40). -/

section
namespace Sys2Proof.Machine

/-- Outside the font, memory is 0 after reset. -/
theorem Memory.initialByte_outside_font {a : Nat} (h : a < 0x100 ∨ 0x150 ≤ a) :
    Memory.initialByte a = 0 := by
  have length : fontBytes.length = 80 := by decide
  unfold Memory.initialByte
  split
  · rfl
  · have past : fontBytes.length ≤ a - fontBase := by simp only [fontBase] at *; omega
    rw [List.getD_eq_default _ _ past]

theorem State.memRead_reset {a : Nat} (h : a < 0x1000) :
    State.reset.memRead a = Memory.initialByte a :=
  congrArg Memory.initialByte (Nat.mod_eq_of_lt h)

end Sys2Proof.Machine

open Sys2Proof Sys2Proof.Machine

/-- Settles O19: the fields, the zero bytes by their address, the font bytes by evaluation. -/
theorem resetValues : Obligations.ResetValues := by
  have registers (x : Nibble) : State.reset.getV x = 0 := Vector.getElem_replicate _
  have entries (k : Nat) (h : k < 16) : State.reset.stack[k] = 0 := Vector.getElem_replicate _
  have zeros (a : Nat) (h : a < 0x100 ∨ (0x150 ≤ a ∧ a < 0x1000)) : State.reset.memRead a = 0 := by
    rw [State.memRead_reset (by omega), Memory.initialByte_outside_font (by omega)]
  exact ⟨registers, rfl, rfl, rfl, entries, rfl, rfl, rfl, rfl, Framebuffer.pixel_clear, zeros,
    by decide⟩
end

/-! Memory (20_memory.md): canonical memories are determined by what they read, a fetch sees the bytes
stored last, and what a ROM load leaves behind. -/

section
namespace Sys2Proof.Machine

/-! ### What a memory lists and what it reads -/

/-- A listed byte is the byte read: no address is listed twice. -/
theorem Memory.read_of_mem {m : Memory} (hm : m.Pairwise (fun c d => c.1 < d.1)) {a : Nat} {w : Byte}
    (h : (a, w) ∈ m) : m.read a = w := by
  induction m with
  | nil => cases h
  | cons d rest ih =>
    obtain ⟨below, hrest⟩ := List.pairwise_cons.mp hm
    obtain rfl | h := List.mem_cons.mp h
    · exact if_pos rfl
    · have lower : d.1 ≠ a := Nat.ne_of_lt (below _ h)
      rw [Memory.read, if_neg lower, ih hrest h]

/-- An address that does not read as its initial byte is listed. -/
theorem Memory.mem_of_read_ne {m : Memory} {a : Nat} (h : m.read a ≠ Memory.initialByte a) :
    (a, m.read a) ∈ m := by
  induction m with
  | nil => exact absurd rfl h
  | cons d rest ih =>
    obtain ⟨b, u⟩ := d
    rw [Memory.read] at h ⊢
    by_cases hb : b = a
    · rw [if_pos hb, hb]; exact List.mem_cons_self
    · rw [if_neg hb] at h ⊢
      exact List.mem_cons_of_mem _ (ih h)

/-- A canonical memory lists exactly the bytes that read as another than the initial byte. -/
theorem Memory.mem_iff_read {m : Memory} (hm : m.wf) {a : Nat} {w : Byte} :
    (a, w) ∈ m ↔ a < Config.memSize ∧ m.read a = w ∧ w ≠ Memory.initialByte a := by
  obtain ⟨rising, inside⟩ := hm
  constructor
  · intro h
    obtain ⟨ha, hw⟩ := inside _ h
    exact ⟨ha, Memory.read_of_mem rising h, hw⟩
  · rintro ⟨-, rfl, hw⟩
    exact Memory.mem_of_read_ne hw

/-- Two memories of rising addresses that list the same bytes are the same list. -/
theorem Memory.eq_of_mem_iff {m m' : Memory} (hm : m.Pairwise (fun c d => c.1 < d.1))
    (hm' : m'.Pairwise (fun c d => c.1 < d.1)) (h : ∀ c, c ∈ m ↔ c ∈ m') : m = m' := by
  have irrefl : Std.Irrefl fun c d : Host.Cell => c.1 < d.1 := ⟨fun _ => Nat.lt_irrefl _⟩
  have antisymm : Std.Antisymm fun c d : Host.Cell => c.1 < d.1 :=
    ⟨fun _ _ hcd hdc => absurd hcd (Nat.lt_asymm hdc)⟩
  exact hm.eq_of_mem_iff hm' h

/-! ### Writes, stores and the fetch -/

theorem State.frame_memWrite (s : State) (a : Nat) (w : Byte) : Frame [.mem] s (s.memWrite a w) := by
  intro p hp; cases p <;> simp_all [Part.same]

/-- Up to the last fetch address, wherever the window begins, the fetch reads the two bytes that
`MemRead` reads. -/
theorem State.fetchWord_eq_memRead {s : State} (h : s.pc.toNat ≤ Config.pcMax) :
    s.fetchWord = wordOfBytes (s.memRead s.pc.toNat) (s.memRead (s.pc.toNat + 1)) := by
  simp only [Config.pcMax] at h
  simp only [State.fetchWord, State.fetchHigh, State.fetchLow, State.memRead, Config.memSize]
  rw [Nat.mod_eq_of_lt (by omega), Nat.mod_eq_of_lt (by omega)]

/-- After the range store, byte `k` from I on is `V[k]` (41_index_memory.md R126). -/
theorem exec_ldMemVx_memRead {x : Nibble} {s t : State} (h : exec (.ldMemVx x) s = .next t) {k : Nat}
    (hk : k ≤ x.toNat) : t.memRead (s.ea k) = s.getV (BitVec.ofNat 4 k) := by
  injection h with h; subst h
  have fits : x.toNat + 1 ≤ Config.memSize := Nat.le_trans x.isLt (by decide)
  exact s.memRead_storeBytes (s.ea 0) s.rangeV _ k fits (Nat.lt_succ_of_le hk)

theorem exec_ldMemVx_pc {x : Nibble} {s t : State} (h : exec (.ldMemVx x) s = .next t) :
    t.pc = s.pc + 2 := by
  injection h with h; subst h
  obtain ⟨m, hm⟩ := s.storeBytes_eq (s.ea 0) s.rangeV (x.toNat + 1)
  rw [State.advance_eq, State.setPc_pc, hm]

/-! ### The ROM load (20_memory.md R63) -/

section
variable {s : State} {rom : List Byte}

theorem State.placeRom_memRead_rom (hl : rom.length ≤ Config.romMax) {k : Nat} (hk : k < rom.length) :
    (s.placeRom rom).memRead (Config.programBase + k) = rom[k] := by
  have fits : rom.length ≤ Config.memSize := hl.trans (by decide)
  calc (s.placeRom rom).memRead (Config.programBase + k)
    _ = rom.getD k 0 := s.memRead_storeBytes _ (fun k => rom.getD k 0) _ _ fits hk
    _ = rom[k] := List.getD_eq_getElem _ _ hk

theorem State.placeRom_memRead_other (hl : rom.length ≤ Config.romMax) {a : Nat} (ha : a < Config.memSize)
    (hout : a < Config.programBase ∨ Config.programBase + rom.length ≤ a) :
    (s.placeRom rom).memRead a = s.memRead a := by
  refine s.memRead_storeBytes_other Config.programBase (fun k => rom.getD k 0) _ a fun k hk => ?_
  simp only [Config.programBase, Config.memSize, Config.romMax] at *
  omega

theorem State.placeRom_stack : (s.placeRom rom).stack = s.stack := by
  obtain ⟨m, hm⟩ := s.storeBytes_eq Config.programBase (fun k => rom.getD k 0) rom.length
  rw [State.placeRom, hm]

/-- A load turn is the host's load. -/
theorem step_load (ht : s.turn = .load rom) : step s = endTurn (s.hostLoad rom) := by
  simp only [step, State.takeTurn, ht]

theorem State.hostLoad_of_le (hs : s.started = false) (hl : rom.length ≤ Config.romMax) :
    s.hostLoad rom = .next (s.placeRom rom) := by
  simp [State.hostLoad, hs, Nat.not_lt.mpr hl]

theorem State.hostLoad_of_lt (hs : s.started = false) (hl : Config.romMax < rom.length) :
    s.hostLoad rom = .refused (.romTooLong rom.length) := by
  simp [State.hostLoad, hs, hl]

theorem State.hostLoad_of_started (hs : s.started = true) :
    s.hostLoad rom = .refused .loadAfterStart := by
  simp [State.hostLoad, hs]

end
end Sys2Proof.Machine

open Sys2Proof Sys2Proof.Machine

/-- Settles O21: the three answers of a load, and what placing the ROM writes. -/
theorem romLoad : Obligations.RomLoad := by
  intro s rom ht
  rw [step_load ht]
  refine ⟨fun hs hl => ?_, fun hs hl => ?_, fun hs => ?_⟩
  · rw [State.hostLoad_of_le hs hl]
    have frame : Frame [.mem, .pc, .stack, .inputs] s (s.placeRom rom).moveOn :=
      (s.frame_placeRom rom).trans (State.frame_setInputs _ _)
    exact ⟨_, rfl, fun _ hk => State.placeRom_memRead_rom hl hk,
      fun _ ha hout => State.placeRom_memRead_other hl ha hout, rfl, rfl, State.placeRom_stack, frame⟩
  · rw [State.hostLoad_of_lt hs hl]; rfl
  · rw [State.hostLoad_of_started hs]; rfl

/-- Settles O24: memories that read alike list the same bytes, and both in rising order. -/
theorem equalReadsMeanEqualMemory : Obligations.EqualReadsMeanEqualMemory := by
  intro m m' hm hm' h
  have ⟨rising, _⟩ := hm
  have ⟨rising', _⟩ := hm'
  refine Memory.eq_of_mem_iff rising rising' fun ⟨a, w⟩ => ?_
  rw [Memory.mem_iff_read hm, Memory.mem_iff_read hm']
  exact and_congr_right fun ha => by rw [h a ha]

/-- Settles O25: the fetch at `pc + 2` reads bytes `k` and `k + 1` of the store. -/
theorem storeSeenByNextFetch : Obligations.StoreSeenByNextFetch := by
  intro s x k hi hk hpc
  obtain ⟨t, ht⟩ : ∃ t, exec (.ldMemVx x) s = .next t := ⟨_, rfl⟩
  have next : t.pc.toNat = s.pc.toNat + 2 := by rw [exec_ldMemVx_pc ht]; bv_omega
  have high : t.pc.toNat = s.ea k := next.trans hi.symm
  have low : t.pc.toNat + 1 = s.ea (k + 1) := congrArg (· + 1) high
  have fetch := State.fetchWord_eq_memRead (next.trans_le (Nat.add_le_add_right hpc 2))
  refine ⟨t, ht, ?_⟩
  rw [fetch, low, high, exec_ldMemVx_memRead ht (Nat.le_of_succ_le hk), exec_ldMemVx_memRead ht hk]

/-- Settles O23: what one byte reads as after one `MemWrite`, and its frame. -/
theorem readAfterWrite : Obligations.ReadAfterWrite := by
  intro s a b w
  refine ⟨fun h => ?_, fun h => ?_, s.frame_memWrite a w⟩
  · exact (s.memRead_memWrite a b w).trans (if_pos h)
  · exact (s.memRead_memWrite a b w).trans (if_neg h)
end

/-! The encoding (30_encoding.md R71 to R79): a word is its hexadecimal digits, a row of the opcode map
speaks of each digit on its own, and the two levels of the decoder are those rows. -/

section
namespace Sys2Proof

/-! ### A word is its fields (R71, R72) -/

section
variable {op : Word} {f n : Nibble} {nn : Byte}

theorem formatXYN_of_fields (hf : fieldFam op = f) (hn : fieldN op = n) :
    formatXYN f (fieldX op) (fieldY op) n = op := by
  subst hf hn
  apply BitVec.eq_of_toNat_eq
  rw [formatXYN_toNat, fieldFam_toNat, fieldX_toNat, fieldY_toNat, fieldN_toNat]; omega

theorem formatXNN_of_fields (hf : fieldFam op = f) (hnn : fieldNN op = nn) :
    formatXNN f (fieldX op) nn = op := by
  subst hf hnn
  apply BitVec.eq_of_toNat_eq
  rw [formatXNN_toNat, fieldFam_toNat, fieldX_toNat, fieldNN_toNat]; omega

theorem formatNNN_of_fields (hf : fieldFam op = f) : formatNNN f (fieldNNN op) = op := by
  subst hf
  apply BitVec.eq_of_toNat_eq
  rw [formatNNN_toNat, fieldFam_toNat, fieldNNN_toNat]; omega

theorem word_eq_iff_digits {a b : Word} :
    a = b ↔ fieldFam a = fieldFam b ∧ fieldX a = fieldX b ∧ fieldY a = fieldY b ∧
      fieldN a = fieldN b := by
  constructor
  · rintro rfl; exact ⟨rfl, rfl, rfl, rfl⟩
  · rintro ⟨hf, hx, hy, hn⟩
    rw [← formatXYN_of_fields hf hn, hx, hy, formatXYN_of_fields rfl rfl]

theorem fieldNN_eq_iff_digits {b : Byte} :
    fieldNN op = b ↔ fieldY op = b.extractLsb' 4 4 ∧ fieldN op = b.extractLsb' 0 4 := by
  simp only [← BitVec.toNat_inj, fieldNN_toNat, fieldY_toNat, fieldN_toNat,
    BitVec.extractLsb'_toNat, Nat.shiftRight_eq_div_pow]
  omega

end

/-! ### The words a row of the opcode map selects (R75)

One lemma per mask of the table. Each names the family first, so that with the family known the rows of
all other families drop out. -/

section
variable {op p : Word}

theorem and_eq_iff_digits {m : Word} :
    op &&& m = p ↔
      fieldFam op &&& m.extractLsb' 12 4 = p.extractLsb' 12 4 ∧
      fieldX op &&& m.extractLsb' 8 4 = p.extractLsb' 8 4 ∧
      fieldY op &&& m.extractLsb' 4 4 = p.extractLsb' 4 4 ∧
      fieldN op &&& m.extractLsb' 0 4 = p.extractLsb' 0 4 := by
  simp only [word_eq_iff_digits, fieldFam, fieldX, fieldY, fieldN, BitVec.extractLsb'_and]

/-- `BitVec.and_allOnes` at the literal that a mask's digit evaluates to. -/
theorem nibble_and_0xF (d : Nibble) : d &&& 0xF#4 = d := BitVec.and_allOnes

@[simp] theorem and_0xFFFF_eq_iff :
    op &&& 0xFFFF#16 = p ↔ fieldFam op = p.extractLsb' 12 4 ∧ op = p := by
  rw [show op &&& 0xFFFF#16 = op from BitVec.and_allOnes]
  exact ⟨fun h => ⟨congrArg fieldFam h, h⟩, And.right⟩

@[simp] theorem and_0xF000_eq_iff :
    op &&& 0xF000#16 = p ↔ fieldFam op = p.extractLsb' 12 4 ∧
      0#4 = p.extractLsb' 8 4 ∧ 0#4 = p.extractLsb' 4 4 ∧ 0#4 = p.extractLsb' 0 4 := by
  simp [and_eq_iff_digits, nibble_and_0xF]

@[simp] theorem and_0xF00F_eq_iff :
    op &&& 0xF00F#16 = p ↔ fieldFam op = p.extractLsb' 12 4 ∧
      0#4 = p.extractLsb' 8 4 ∧ 0#4 = p.extractLsb' 4 4 ∧ fieldN op = p.extractLsb' 0 4 := by
  simp [and_eq_iff_digits, nibble_and_0xF]

@[simp] theorem and_0xF0FF_eq_iff :
    op &&& 0xF0FF#16 = p ↔ fieldFam op = p.extractLsb' 12 4 ∧
      0#4 = p.extractLsb' 8 4 ∧ fieldNN op = p.extractLsb' 0 8 := by
  simp [and_eq_iff_digits, nibble_and_0xF, fieldNN_eq_iff_digits]

end

/-! ### The decoder's second level: its rows of the map (R75), its failures (R76) -/

section
variable {op : Word}

theorem lookupOpcode_fam8 (hf : fieldFam op = 0x8#4) : lookupOpcode opcodeMap op = decodeFam8 op := by
  unfold decodeFam8
  split <;> simp_all [opcodeMap, lookupOpcode]

theorem lookupOpcode_famE (hf : fieldFam op = 0xE#4) : lookupOpcode opcodeMap op = decodeFamE op := by
  unfold decodeFamE
  split <;> simp_all [opcodeMap, lookupOpcode]

theorem lookupOpcode_famF (hf : fieldFam op = 0xF#4) : lookupOpcode opcodeMap op = decodeFamF op := by
  unfold decodeFamF
  split <;> simp_all [opcodeMap, lookupOpcode]

theorem decodeFam8_eq_error_iff :
    decodeFam8 op = .error (.decodeFailure op) ↔
      fieldN op ∈ [0x8#4, 0x9#4, 0xA#4, 0xB#4, 0xC#4, 0xD#4, 0xF#4] := by
  unfold decodeFam8
  split
  case h_10 =>
    generalize fieldN op = n at *
    simp only [true_iff]
    decide +revert
  all_goals simp [*]

theorem decodeFamE_eq_error_iff :
    decodeFamE op = .error (.decodeFailure op) ↔ fieldNN op ∉ [0x9E#8, 0xA1#8] := by
  unfold decodeFamE
  split <;> simp_all

theorem decodeFamF_eq_error_iff :
    decodeFamF op = .error (.decodeFailure op) ↔
      fieldNN op ∉ [0x07#8, 0x0A#8, 0x15#8, 0x18#8, 0x1E#8, 0x29#8, 0x33#8, 0x55#8, 0x65#8] := by
  unfold decodeFamF
  split <;> simp_all

end

/-! ### The table as a whole (R74, R75) -/

theorem decodeWord_eq_lookupOpcode (op : Word) : decodeWord op = lookupOpcode opcodeMap op := by
  unfold decodeWord
  split
  case h_9 hf => exact (lookupOpcode_fam8 hf).symm
  case h_15 hf => exact (lookupOpcode_famE hf).symm
  case h_16 =>
    have hf : fieldFam op = 0xF#4 := by generalize fieldFam op = f at *; decide +revert
    exact (lookupOpcode_famF hf).symm
  all_goals simp [opcodeMap, lookupOpcode, *]

/-- The instruction found is that of a row that selects the word. -/
theorem exists_row_of_lookupOpcode {rows : List OpcodeRow} {op : Word} {i : Instr}
    (h : lookupOpcode rows op = .ok i) :
    ∃ row ∈ rows, op &&& row.mask = row.pattern ∧ row.instr op = i := by
  induction rows with
  | nil => cases h
  | cons row rest ih =>
    rw [lookupOpcode] at h
    split at h
    case isTrue hsel => exact ⟨row, List.mem_cons_self, hsel, Decoded.ok.inj h⟩
    case isFalse =>
      obtain ⟨r, hr, hi⟩ := ih h
      exact ⟨r, List.mem_cons_of_mem row hr, hi⟩

/-- Two rows that select the same word have patterns that agree on the bits both masks keep. -/
theorem patterns_agree_of_and_eq {op m m' p p' : Word} (h : op &&& m = p) (h' : op &&& m' = p') :
    p &&& m' = p' &&& m := by
  rw [← h, ← h', BitVec.and_assoc, BitVec.and_assoc, BitVec.and_comm m]

/-- Only `SYS` has a pattern that agrees with an earlier one, with those of `CLS` and `RET`. -/
theorem opcodeMap_patterns_agree :
    ∀ j k : Fin opcodeMap.length, j < k →
      opcodeMap[j].pattern &&& opcodeMap[k].mask = opcodeMap[k].pattern &&& opcodeMap[j].mask →
      (j.val = 0 ∨ j.val = 1) ∧ k.val = 2 := by
  decide

/-- Every row's instruction encodes to the word the row selected: its format put together again. -/
theorem encode_instr_of_and_eq {op : Word} :
    ∀ row ∈ opcodeMap, op &&& row.mask = row.pattern → encode (row.instr op) = op := by
  simp +contextual [opcodeMap, encode, formatXYN_of_fields, formatXNN_of_fields, formatNNN_of_fields]

/-- The words of the two ill-formed instructions decode to `CLS` and `RET` (R74). -/
theorem wellFormed_of_decodeWord_encode {i : Instr} (h : decodeWord (encode i) = .ok i) :
    i.wellFormed = true := by
  cases i
  case sys nnn =>
    simp only [Instr.wellFormed, Bool.and_eq_true, bne_iff_ne]
    constructor <;> rintro rfl <;> exact absurd h (by decide)
  all_goals rfl

end Sys2Proof

open Sys2Proof Sys2Proof.Laws

/-- Settles O1: the round trip of each instruction. -/
theorem decodeAfterEncode : Obligations.DecodeAfterEncode
  | .cls => RoundTrip.cls
  | .ret => RoundTrip.ret
  | .sys nnn => RoundTrip.sys nnn
  | .jp nnn => RoundTrip.jp nnn
  | .call nnn => RoundTrip.call nnn
  | .seImm x nn => RoundTrip.seImm x nn
  | .sneImm x nn => RoundTrip.sneImm x nn
  | .seReg x y => RoundTrip.seReg x y
  | .ldImm x nn => RoundTrip.ldImm x nn
  | .addImm x nn => RoundTrip.addImm x nn
  | .ldReg x y => RoundTrip.ldReg x y
  | .or x y => RoundTrip.or x y
  | .and x y => RoundTrip.and x y
  | .xor x y => RoundTrip.xor x y
  | .addReg x y => RoundTrip.addReg x y
  | .sub x y => RoundTrip.sub x y
  | .shr x y => RoundTrip.shr x y
  | .subn x y => RoundTrip.subn x y
  | .shl x y => RoundTrip.shl x y
  | .sneReg x y => RoundTrip.sneReg x y
  | .ldI nnn => RoundTrip.ldI nnn
  | .jpV0 nnn => RoundTrip.jpV0 nnn
  | .rnd x nn => RoundTrip.rnd x nn
  | .drw x y n => RoundTrip.drw x y n
  | .skp x => RoundTrip.skp x
  | .sknp x => RoundTrip.sknp x
  | .ldVxDt x => RoundTrip.ldVxDt x
  | .ldVxK x => RoundTrip.ldVxK x
  | .ldDtVx x => RoundTrip.ldDtVx x
  | .ldStVx x => RoundTrip.ldStVx x
  | .addIVx x => RoundTrip.addIVx x
  | .ldFVx x => RoundTrip.ldFVx x
  | .ldBVx x => RoundTrip.ldBVx x
  | .ldMemVx x => RoundTrip.ldMemVx x
  | .ldVxMem x => RoundTrip.ldVxMem x

/-- Settles O2: the decoder's answer comes from a row, whose instruction encodes to the word; and an
ill-formed instruction is not what its own word decodes to. -/
theorem encodeAfterDecode : Obligations.EncodeAfterDecode := by
  intro op i h
  have hlookup : lookupOpcode opcodeMap op = .ok i := (decodeWord_eq_lookupOpcode op).symm.trans h
  obtain ⟨row, hrow, hsel, rfl⟩ := exists_row_of_lookupOpcode hlookup
  have hword : encode (row.instr op) = op := encode_instr_of_and_eq row hrow hsel
  exact ⟨wellFormed_of_decodeWord_encode (hword.symm ▸ h), hword⟩

/-- Settles O3: the decoder family by family, and the patterns of the table two by two. -/
theorem decoderFollowsOpcodeMap : Obligations.DecoderFollowsOpcodeMap := by
  refine ⟨decodeWord_eq_lookupOpcode, rfl, fun j k hj hk op hjk hselj hselk => ?_⟩
  exact opcodeMap_patterns_agree ⟨j, hj⟩ ⟨k, hk⟩ hjk (patterns_agree_of_and_eq hselj hselk)

/-- Settles O4: the failures of each family, those of 8, E and F at the second level. -/
theorem illegalWordsAreTheListedOnes : Obligations.IllegalWordsAreTheListedOnes := by
  intro op
  unfold decodeWord
  split
  case h_1 hf => split_ifs <;> simp [hf]
  case h_9 hf => simp [hf, decodeFam8_eq_error_iff]
  case h_15 hf => simp [hf, decodeFamE_eq_error_iff]
  case h_16 =>
    have hf : fieldFam op = 0xF#4 := by generalize fieldFam op = f at *; decide +revert
    simp [hf, decodeFamF_eq_error_iff]
  all_goals simp [*]

/-- Settles O5: the decoder run on each word. -/
theorem sampleWordsDecode : Obligations.SampleWordsDecode := by
  unfold Obligations.SampleWordsDecode; decide
end

/-! Register load, arithmetic, logic, shift and random (40_alu.md): the flag operations in numbers, and
the two ways an instruction of this group writes its registers, plain and flagged. -/

section
namespace Sys2Proof.Machine

/-! ### Results and flags in numbers (R102, R107 to R112) -/

section
variable (a b : Byte)

theorem byte_add_eq_ofNat : a + b = BitVec.ofNat 8 ((a.toNat + b.toNat) % 256) :=
  BitVec.eq_of_toNat_eq (by simp)

theorem addCarry_flag_iff : (addCarry a b).flag = true ↔ a.toNat + b.toNat > 255 :=
  decide_eq_true_iff

theorem subNotBorrow_value :
    (subNotBorrow a b).value = BitVec.ofNat 8 ((a.toNat + 256 - b.toNat) % 256) := by
  have hb := b.isLt
  refine BitVec.eq_of_toNat_eq ?_
  simp only [subNotBorrow, BitVec.toNat_sub, BitVec.toNat_ofNat]
  omega

theorem subNotBorrow_flag_iff : (subNotBorrow a b).flag = true ↔ a.toNat ≥ b.toNat :=
  decide_eq_true_iff

theorem shiftRightOut_value : (shiftRightOut a).value = BitVec.ofNat 8 (a.toNat / 2) := by
  have ha := a.isLt
  refine BitVec.eq_of_toNat_eq ?_
  simp only [shiftRightOut, BitVec.toNat_ushiftRight, BitVec.toNat_ofNat, Nat.shiftRight_one]
  omega

/-- Bit 0 is the remainder of the halving. -/
theorem shiftRightOut_flag_iff : (shiftRightOut a).flag = true ↔ a.toNat % 2 = 1 := by
  simp [shiftRightOut, BitVec.getLsbD, Nat.testBit_zero]

theorem shiftLeftOut_value : (shiftLeftOut a).value = BitVec.ofNat 8 (a.toNat * 2 % 256) := by
  refine BitVec.eq_of_toNat_eq ?_
  simp only [shiftLeftOut, BitVec.toNat_shiftLeft, BitVec.toNat_ofNat, Nat.shiftLeft_eq]
  omega

/-- Bit 7 is the most significant one. -/
theorem shiftLeftOut_flag_iff : (shiftLeftOut a).flag = true ↔ a.toNat ≥ 128 := by
  have top : (shiftLeftOut a).flag = a.msb := (BitVec.msb_eq_getLsbD_last a).symm
  rw [top, BitVec.msb_eq_decide, decide_eq_true_iff]

end

/-! ### The two ways to write registers -/

section
variable (s : State) (x : Nibble)

theorem State.wroteV_setV_advance (b : Byte) : WroteV x b s (s.setV x b).advance :=
  ⟨s.getV_setV_same x b, fun _ hr => State.getV_setV_ne hr⟩

/-- The order of R100: the flag is written last. -/
theorem State.wroteFlagged_writeFlagged (f : Flagged) :
    WroteFlagged x f.value (f.flag = true) s (s.writeFlagged x f) := by
  refine ⟨fun hf => ?_, fun hf => ?_, fun hx => ?_, fun r hx hf => ?_⟩
  · rw [s.writeFlagged_getV_vf, hf]; rfl
  · rw [s.writeFlagged_getV_vf, eq_false_of_ne_true hf]; rfl
  · rw [s.writeFlagged_getV, if_neg hx, if_pos rfl]
  · rw [s.writeFlagged_getV, if_neg hf, if_neg hx]

end

section
variable {i : Instr} {s : State} {x : Nibble} {b c : Byte} {f : Flagged} {flag : Prop}

/-- An instruction that writes `V[x]` and goes on. -/
theorem exec_wroteV (h : exec i s = .next (s.setV x b).advance) (hb : b = c) :
    ∃ t, exec i s = .next t ∧ WroteV x c s t ∧ t.pc = s.pc + 2 ∧ Frame [.v, .pc] s t := by
  subst hb
  exact ⟨_, h, s.wroteV_setV_advance x b, rfl, (s.frame_setV x b).trans (State.frame_setPc _ _)⟩

/-- An instruction that writes a result and its flag and goes on. -/
theorem exec_wroteFlagged (h : exec i s = .next (s.writeFlagged x f)) (hb : f.value = b)
    (hf : f.flag = true ↔ flag) :
    ∃ t, exec i s = .next t ∧ WroteFlagged x b flag s t ∧ t.pc = s.pc + 2 ∧
      Frame [.v, .pc] s t := by
  subst hb
  obtain rfl := propext hf
  exact ⟨_, h, s.wroteFlagged_writeFlagged x f, rfl, s.frame_writeFlagged x f⟩

end

/-! ### The random byte of a turn (R113, D21) -/

section
variable {n : Inputs}

theorem Inputs.draw_of_fixed {b : Byte} (h : n.now.draw = some b) : n.draw = b := by
  rw [Inputs.draw, h, Option.getD_some]

theorem Inputs.draw_of_free (h : n.now.draw = none) : n.draw = Config.randDraw n.count := by
  rw [Inputs.draw, h, Option.getD_none]

end
end Sys2Proof.Machine

open Sys2Proof Sys2Proof.Machine

/-- Settles O26: a plain write of the immediate. -/
theorem loadImmediate : Obligations.LoadImmediate := fun _ _ _ => exec_wroteV rfl rfl

/-- Settles O27: five plain writes; the sum of bytes is the sum modulo 256. -/
theorem flaglessRegisterInstructions : Obligations.FlaglessRegisterInstructions :=
  fun _ _ _ _ =>
    ⟨exec_wroteV rfl (byte_add_eq_ofNat _ _), exec_wroteV rfl rfl, exec_wroteV rfl rfl,
      exec_wroteV rfl rfl, exec_wroteV rfl rfl⟩

/-- Settles O28: a flagged write of sum and carry. -/
theorem addSetsCarry : Obligations.AddSetsCarry := fun _ _ _ =>
  exec_wroteFlagged rfl rfl (addCarry_flag_iff _ _)

/-- Settles O29: a flagged write of difference and not-borrow. -/
theorem subSetsNotBorrow : Obligations.SubSetsNotBorrow := fun _ _ _ =>
  exec_wroteFlagged rfl (subNotBorrow_value _ _) (subNotBorrow_flag_iff _ _)

/-- Settles O30: the same write with the operands reversed. -/
theorem subnSetsNotBorrow : Obligations.SubnSetsNotBorrow := fun _ _ _ =>
  exec_wroteFlagged rfl (subNotBorrow_value _ _) (subNotBorrow_flag_iff _ _)

/-- Settles O31: flagged writes of the halved and the doubled register and the bit shifted out. -/
theorem shiftsSetBitOut : Obligations.ShiftsSetBitOut := fun _ _ _ =>
  ⟨exec_wroteFlagged rfl (shiftRightOut_value _) (shiftRightOut_flag_iff _),
    exec_wroteFlagged rfl (shiftLeftOut_value _) (shiftLeftOut_flag_iff _)⟩

/-- Settles O32: a plain write of the masked byte of this turn; a step moves the inputs on. -/
theorem randomDrawIsFresh : Obligations.RandomDrawIsFresh := by
  intro x nn s
  obtain ⟨t, ht, wrote, pc, frame⟩ := exec_wroteV (i := .rnd x nn) (s := s) rfl rfl
  have moved {u : State} (hu : step s = .next u) : u.inputs.count = s.inputs.count + 1 := by
    rw [step_inputs hu, Inputs.count_moveOn]
  exact ⟨t, s.inputs.draw, ht, wrote, pc, frame, fun _ => Inputs.draw_of_fixed,
    Inputs.draw_of_free, fun _ _ => moved⟩
end

/-! Address register and memory (41_index_memory.md): what is written to I in numbers, and the stores and
the load that go from I upward. -/

section
namespace Sys2Proof.Machine

/-! ### The values of I (R121 to R123) -/

/-- A write of I reduces the word modulo 4096: the mask 0x0FFF keeps its low 12 bits (10_state.md R23). -/
theorem State.setI_i_toNat (s : State) (w : Word) : (s.setI w).i.toNat = w.toNat % 4096 := by
  rw [State.setI_i, BitVec.toNat_and]
  exact Nat.and_two_pow_sub_one_eq_mod w.toNat 12

@[simp] theorem lowNibble_toNat (b : Byte) : (lowNibble b).toNat = b.toNat % 16 := by
  simp [lowNibble]

/-- The glyphs stand below 0x200, so nothing wraps. -/
theorem fontAddress_toNat (d : Nibble) : (fontAddress d).toNat = 0x100 + 5 * d.toNat := by
  have hd := d.isLt
  simp only [fontAddress, BitVec.toNat_add, BitVec.toNat_mul, BitVec.toNat_setWidth,
    BitVec.ofNat_eq_ofNat, BitVec.toNat_ofNat]
  omega

/-- An instruction that writes I and goes on. -/
theorem exec_wroteI {i : Instr} {s : State} {w : Word} {n : Nat}
    (h : exec i s = .next (s.setI w).advance) (hn : w.toNat % 4096 = n) :
    ∃ t, exec i s = .next t ∧ t.i.toNat = n ∧ t.pc = s.pc + 2 ∧ Frame [.i, .pc] s t :=
  ⟨_, h, (s.setI_i_toNat w).trans hn, rfl, (s.frame_setI w).trans (State.frame_setPc _ _)⟩

/-! ### Transfers leave the program counter alone -/

@[simp] theorem State.storeBytes_pc (s : State) (a : Nat) (f : Nat → Byte) (n : Nat) :
    (s.storeBytes a f n).pc = s.pc :=
  s.frame_storeBytes a f n .pc (by simp)

@[simp] theorem State.loadRange_pc (s : State) (n : Nat) : (s.loadRange n).pc = s.pc :=
  s.frame_loadRange n .pc (by simp)

/-! ### The decimal digits (R124) -/

theorem byte_ofNat_toNat {n : Nat} (h : n < 256) : (BitVec.ofNat 8 n).toNat = n :=
  (BitVec.toNat_ofNat n 8).trans (Nat.mod_eq_of_lt h)

section
variable (a : Byte)

theorem bcdDigit_hundreds : (bcdDigit a 0).toNat = a.toNat / 100 :=
  byte_ofNat_toNat (by omega)

theorem bcdDigit_tens : (bcdDigit a 1).toNat = a.toNat / 10 % 10 :=
  byte_ofNat_toNat (by omega)

theorem bcdDigit_ones : (bcdDigit a 2).toNat = a.toNat % 10 :=
  byte_ofNat_toNat (by omega)

end

/-! ### What each transfer leaves behind (R124 to R127) -/

section
variable {x r : Nibble} {s t : State}

theorem exec_ldBVx_memRead (h : exec (.ldBVx x) s = .next t) {k : Nat} (hk : k < 3) :
    t.memRead (s.ea k) = bcdDigit (s.getV x) k := by
  injection h with h; subst h
  exact s.memRead_storeBytes (s.ea 0) (bcdDigit (s.getV x)) 3 k (by decide) hk

theorem exec_ldBVx_pc (h : exec (.ldBVx x) s = .next t) : t.pc = s.pc + 2 := by
  injection h with h; subst h
  rw [State.advance_eq, State.setPc_pc, State.storeBytes_pc]

/-- `exec_ldMemVx_memRead` by the number of the register. -/
theorem exec_ldMemVx_memRead_ea (h : exec (.ldMemVx x) s = .next t) (hr : r.toNat ≤ x.toNat) :
    t.memRead (s.ea r.toNat) = s.getV r := by
  rw [exec_ldMemVx_memRead h hr, BitVec.ofNat_toNat, BitVec.setWidth_eq]

theorem exec_ldVxMem_getV (h : exec (.ldVxMem x) s = .next t) (hr : r.toNat ≤ x.toNat) :
    t.getV r = s.memRead (s.ea r.toNat) := by
  injection h with h; subst h
  rw [State.advance_eq, State.setPc_getV, State.loadRange_getV _ _ x.isLt,
    if_pos (Nat.lt_succ_of_le hr)]

theorem exec_ldVxMem_pc (h : exec (.ldVxMem x) s = .next t) : t.pc = s.pc + 2 := by
  injection h with h; subst h
  rw [State.advance_eq, State.setPc_pc, State.loadRange_pc]

end
end Sys2Proof.Machine

open Sys2Proof Sys2Proof.Machine

/-- Settles O33: three writes of I, each with its value reduced modulo 4096. -/
theorem addressRegisterInstructions : Obligations.AddressRegisterInstructions := by
  intro nnn x s
  have sum : (s.i + zextByte (s.getV x)).toNat % 4096 = (s.i.toNat + (s.getV x).toNat) % 4096 := by
    rw [BitVec.toNat_add, zextByte_toNat]; omega
  refine ⟨exec_wroteI rfl ?_, exec_wroteI rfl sum, exec_wroteI rfl ?_⟩
  · rw [zextAddr_toNat]; omega
  · rw [fontAddress_toNat, lowNibble_toNat]; omega

/-- Settles O34: each digit where it was stored, and no other byte by the frame rule. -/
theorem bcdStoresThreeDigits : Obligations.BcdStoresThreeDigits := by
  intro x s
  obtain ⟨t, ht⟩ : ∃ t, exec (.ldBVx x) s = .next t := ⟨_, rfl⟩
  have digit (k : Nat) (hk : k < 3) : t.memRead (s.ea k) = bcdDigit (s.getV x) k :=
    exec_ldBVx_memRead ht hk
  refine ⟨t, ht, ?_, ?_, ?_, fun _ => exec_memRead ht, exec_ldBVx_pc ht, exec_frame ht⟩
  · rw [digit 0 (by decide), bcdDigit_hundreds]
  · rw [digit 1 (by decide), bcdDigit_tens]
  · rw [digit 2 (by decide), bcdDigit_ones]

/-- Settles O35: each register where it was stored, and no other byte by the frame rule. -/
theorem rangeStore : Obligations.RangeStore := by
  intro x s
  obtain ⟨t, ht⟩ : ∃ t, exec (.ldMemVx x) s = .next t := ⟨_, rfl⟩
  exact ⟨t, ht, fun _ => exec_ldMemVx_memRead_ea ht,
    fun _ ha => exec_memRead ht fun k hk => ha k (Nat.le_of_lt_succ hk),
    exec_ldMemVx_pc ht, exec_frame ht⟩

/-- Settles O36: each register as it was loaded, and no other by the frame rule. -/
theorem rangeLoad : Obligations.RangeLoad := by
  intro x s
  obtain ⟨t, ht⟩ : ∃ t, exec (.ldVxMem x) s = .next t := ⟨_, rfl⟩
  have higher (r : Nibble) (hr : x.toNat < r.toNat) : mayWriteV r (.ldVxMem x) = false :=
    decide_eq_false (Nat.not_le.mpr hr)
  exact ⟨t, ht, fun _ => exec_ldVxMem_getV ht, fun r hr => exec_getV ht (higher r hr),
    exec_ldVxMem_pc ht, exec_frame ht⟩

/-- Settles O37: neither transfer moves I, so the load reads where the store wrote. -/
theorem rangeRoundTrip : Obligations.RangeRoundTrip := by
  intro x s t t' u store hi hmem load
  have address : t'.i = s.i := hi.trans (exec_frame store .i (by simp [partsOf]))
  refine ⟨(exec_frame load .i (by simp [partsOf])).trans address, fun r hr => ?_⟩
  have same_ea : t'.ea r.toNat = s.ea r.toNat := congrArg (·.toNat + r.toNat) address
  calc u.getV r
    _ = t'.memRead (t'.ea r.toNat) := exec_ldVxMem_getV load hr
    _ = t.memRead (s.ea r.toNat) := by rw [same_ea, hmem]
    _ = s.getV r := exec_ldMemVx_memRead_ea store hr
end

/-! Display (42_display.md): which pixels `draw_row` and `DRW` reach, and what `DRW` leaves in the
framebuffer and in VF. -/

section
namespace Sys2Proof.Machine

/-! ### Flipping: the new pixel against the old one -/

theorem xor_eq_true_iff_iff_not {a b : Bool} {p : Prop} (hb : b = true ↔ p) :
    (a ^^ b) = true ↔ (a = true ↔ ¬ p) := by
  rw [← hb]
  cases a <;> cases b <;> decide

/-- The pixel lies in a column whose bit of the sprite row is 1 (R136, bit order D16). -/
theorem underBits_iff (bits : Byte) (x n : Nat) (col : Fin 64) :
    underBits bits x n col = true ↔
      ∃ c, c < n ∧ bits.getLsbD (7 - c) = true ∧ col.val = (x + c) % 64 := by
  simp [underBits, Fin.ext_iff, wrapCol, Config.displayW]

/-! ### The sprite of `DRW` -/

section
variable (s : State) (x y n : Nibble)

theorem State.underSprite_iff_covers (row : Fin 32) (col : Fin 64) :
    underSprite (fun r => s.memRead (s.ea r)) (s.getV x).toNat (s.getV y).toNat n.toNat row col = true ↔
      s.covers x y n row col := by
  simp only [underSprite, List.any_eq_true, List.mem_range, Bool.and_eq_true, decide_eq_true_eq,
    underBits_iff, Fin.ext_iff, wrapRow, Config.displayH, State.covers]
  constructor
  · rintro ⟨r, hr, hrow, c, hc, hbit, hcol⟩
    exact ⟨r, c, hr, hc, hbit, hrow, hcol⟩
  · rintro ⟨r, c, hr, hc, hbit, hrow, hcol⟩
    exact ⟨r, hr, hrow, c, hc, hbit, hcol⟩

/-- At most 15 rows, so `drawSprite_spec` applies. -/
theorem State.sprite_spec :
    (∀ row col, Framebuffer.pixel (s.sprite x y n).1 row col = true ↔
      (Framebuffer.pixel s.fb row col = true ↔ ¬ s.covers x y n row col)) ∧
    ((s.sprite x y n).2 = true ↔
      ∃ row col, s.covers x y n row col ∧ Framebuffer.pixel s.fb row col = true) := by
  have rows : n.toNat ≤ 32 := by omega
  obtain ⟨pixels, reply⟩ := Framebuffer.drawSprite_spec s.fb (fun r => s.memRead (s.ea r))
    (s.getV x).toNat (s.getV y).toNat n.toNat rows
  refine ⟨fun row col => ?_, ?_⟩
  · rw [State.sprite, pixels]
    exact xor_eq_true_iff_iff_not (s.underSprite_iff_covers x y n row col)
  · rw [State.sprite, reply, decide_eq_true_iff]
    simp only [State.underSprite_iff_covers]

end

/-- What a sprite covers depends on its position, on I and on memory alone. -/
theorem State.covers_congr {s t : State} {x y : Nibble} (n : Nibble) (hx : t.getV x = s.getV x)
    (hy : t.getV y = s.getV y) (hi : t.i = s.i) (hmem : ∀ a, t.memRead a = s.memRead a)
    (row : Fin 32) (col : Fin 64) : t.covers x y n row col ↔ s.covers x y n row col := by
  simp only [State.covers, State.ea, hx, hy, hi, hmem]

/-! ### What `DRW` leaves behind (R132) -/

theorem flagByte_eq_one_iff {b : Bool} : flagByte b = 1 ↔ b = true := by
  cases b <;> decide

section
variable {x y n : Nibble} {s t : State} (h : exec (.drw x y n) s = .next t)
include h

theorem exec_drw_pixel (row : Fin 32) (col : Fin 64) :
    Framebuffer.pixel t.fb row col = true ↔
      (Framebuffer.pixel s.fb row col = true ↔ ¬ s.covers x y n row col) := by
  injection h with h; subst h
  exact (s.sprite_spec x y n).1 row col

theorem exec_drw_vf_eq : t.getV vf = flagByte (s.sprite x y n).2 := by
  injection h with h; subst h
  exact State.getV_setV_same _ _ _

theorem exec_drw_vf_eq_one_iff :
    t.getV vf = 1 ↔ ∃ row col, s.covers x y n row col ∧ Framebuffer.pixel s.fb row col = true := by
  rw [exec_drw_vf_eq h, flagByte_eq_one_iff, (s.sprite_spec x y n).2]

theorem exec_drw_vf_eq_zero
    (clear : ¬ ∃ row col, s.covers x y n row col ∧ Framebuffer.pixel s.fb row col = true) :
    t.getV vf = 0 := by
  have reply := eq_false_of_ne_true (mt (s.sprite_spec x y n).2.mp clear)
  rw [exec_drw_vf_eq h, reply]; rfl

theorem exec_drw_wroteV {b : Byte} (hb : t.getV vf = b) : WroteV vf b s t :=
  ⟨hb, fun _ hr => exec_getV h (beq_false_of_ne hr)⟩

end
end Sys2Proof.Machine

open Sys2Proof Sys2Proof.Machine

/-- Settles O38: no pixel is set after CLS, so whatever a sprite covers, nothing collides. -/
theorem clearScreen : Obligations.ClearScreen := by
  intro s
  obtain ⟨t, ht⟩ : ∃ t, exec .cls s = .next t := ⟨_, rfl⟩
  obtain ⟨clear, pc⟩ : t.fb = Framebuffer.clear ∧ t.pc = s.pc + 2 := by
    injection ht with ht; subst ht
    exact ⟨rfl, rfl⟩
  refine ⟨t, ht, fun row col => ?_, pc, exec_frame ht, fun x y n t' u hfb draw => ?_⟩
  · rw [clear, Framebuffer.pixel_clear]
  · refine exec_drw_vf_eq_zero draw ?_
    simp [hfb, clear]

/-- Settles O39: what one row does to a pixel and replies, with the column under a 1 bit written out. -/
theorem drawRowFlipsPixels : Obligations.DrawRowFlipsPixels := by
  intro f bits x y under
  obtain ⟨pixels, reply⟩ := f.drawRow_spec bits x y
  have in_row (row : Fin 32) : row = wrapRow y ↔ row.val = y % 32 := Fin.ext_iff
  have under_iff (col : Fin 64) : underBits bits x 8 col = true ↔ under col :=
    underBits_iff bits x 8 col
  refine ⟨fun row col => ?_, ?_⟩
  · rw [pixels]
    refine xor_eq_true_iff_iff_not ?_
    rw [Bool.and_eq_true, decide_eq_true_iff, in_row, under_iff]
  · simp only [reply, decide_eq_true_iff, under_iff, ← in_row, exists_and_left, exists_eq_left]

/-- Settles O40: the sprite's pixels and reply; VF is the one register `DRW` may write. -/
theorem drawFlipsCoveredPixels : Obligations.DrawFlipsCoveredPixels := by
  intro x y n s
  obtain ⟨t, ht⟩ : ∃ t, exec (.drw x y n) s = .next t := ⟨_, rfl⟩
  have pc : t.pc = s.pc + 2 := by injection ht with ht; subst ht; rfl
  exact ⟨t, ht, exec_drw_pixel ht,
    fun collides => exec_drw_wroteV ht ((exec_drw_vf_eq_one_iff ht).mpr collides),
    fun clear => exec_drw_wroteV ht (exec_drw_vf_eq_zero ht clear), pc, exec_frame ht⟩

/-- Settles O41: both draws cover the same pixels; each of them is flipped twice, and at the second draw
it is set iff it was clear at the first. -/
theorem drawTwiceRestores : Obligations.DrawTwiceRestores := by
  intro x y n s t t' u first hfb hx hy hi hmem second
  have same_cover := State.covers_congr n hx hy hi hmem
  have at_second (row : Fin 32) (col : Fin 64) : Framebuffer.pixel t'.fb row col = true ↔
      (Framebuffer.pixel s.fb row col = true ↔ ¬ s.covers x y n row col) := by
    rw [hfb]; exact exec_drw_pixel first row col
  refine ⟨Framebuffer.ext_pixel fun row col => Bool.eq_iff_iff.mpr ?_, ?_⟩
  · rw [exec_drw_pixel second, at_second, same_cover]
    tauto
  · rw [exec_drw_vf_eq_one_iff second]
    refine exists_congr fun row => exists_congr fun col => ?_
    rw [at_second, same_cover]
    refine and_congr_right fun covered => ?_
    rw [iff_false_right (not_not_intro covered), Bool.not_eq_true]
end

/-! Keypad and timers (43_keypad_timers.md): the two halves of `LD Vx, K`, the skips on a key's level in
this turn, and the instructions that move DT and ST. -/

section
namespace Sys2Proof.Machine

/-! ### The key-down edge (R143, D19) -/

section
variable {s : State} {x k : Nibble}

@[simp] theorem zextNibble_toNat (k : Nibble) : (zextNibble k).toNat = k.toNat :=
  BitVec.toNat_setWidth_of_le (by decide)

theorem State.keyEdge_of_awaitingKey (hr : s.run = .awaitingKey x) :
    s.keyEdge k = { (s.setV x (zextNibble k)).advance with run := .running } := by
  simp only [State.keyEdge, hr]

theorem State.keyEdge_of_not_awaitingKey (hr : ∀ y, s.run ≠ .awaitingKey y) : s.keyEdge k = s := by
  unfold State.keyEdge
  split
  case h_1 y hy => exact absurd hy (hr y)
  all_goals rfl

/-- A key-edge turn is the edge with the inputs moved on. -/
theorem step_keyEdge (ht : s.turn = .keyEdge k) : step s = .next (s.keyEdge k).moveOn := by
  simp only [step, State.takeTurn, ht, endTurn]

end

/-! ### The key levels of a turn (R140, D35) and the key an instruction names (D18) -/

section
variable {n : Inputs}

theorem Inputs.levels_of_fixed {l : BitVec 16} (h : n.now.keys = some l) : n.levels = l := by
  rw [Inputs.levels, h, Option.getD_some]

theorem Inputs.levels_of_free (h : n.now.keys = none) : n.levels = Config.keyLevels n.count := by
  rw [Inputs.levels, h, Option.getD_none]

theorem State.isKeyDown_lowNibble (s : State) (b : Byte) :
    s.isKeyDown (lowNibble b) = s.inputs.levels.getLsbD (b.toNat % 16) := by
  rw [State.isKeyDown, lowNibble_toNat]

end

/-! ### The two ways to skip -/

section
variable {i : Instr} {s : State} {c : Bool} {p : Prop} [Decidable p]

/-- An instruction that skips the next one when `p` holds. -/
theorem exec_skips_if (h : exec i s = .next (s.skipIf c)) (hc : c = true ↔ p) :
    ∃ t, exec i s = .next t ∧ Frame [.pc] s t ∧ t.pc = if p then s.pc + 4 else s.pc + 2 :=
  ⟨_, h, s.frame_setPc _, if_congr hc rfl rfl⟩

/-- An instruction that skips the next one unless `p` holds. -/
theorem exec_skips_unless (h : exec i s = .next (s.skipIf (!c))) (hc : c = true ↔ p) :
    ∃ t, exec i s = .next t ∧ Frame [.pc] s t ∧ t.pc = if p then s.pc + 2 else s.pc + 4 := by
  obtain ⟨t, ht, frame, pc⟩ := exec_skips_if h (Bool.not_iff_not.trans (not_congr hc))
  exact ⟨t, ht, frame, pc.trans (ite_not ..)⟩

end
end Sys2Proof.Machine

open Sys2Proof Sys2Proof.Machine

/-- Settles O16: the suspension, the edge in the wait, and the edge outside it, which is dropped. -/
theorem keyWaitCompletesOnEdge : Obligations.KeyWaitCompletesOnEdge := by
  refine ⟨fun x s => ⟨_, rfl, rfl, s.frame_awaitKey x⟩, fun x k s hr ht => ?_, fun k s hr ht => ?_⟩
  · have frame : Frame [.v, .pc, .run, .inputs] s (s.keyEdge k).moveOn :=
      (s.frame_keyEdge k).trans (State.frame_setInputs _ _)
    have edge := step_keyEdge ht
    rw [State.keyEdge_of_awaitingKey hr] at frame edge
    exact ⟨_, edge, s.wroteV_setV_advance x _, zextNibble_toNat k, rfl, rfl, rfl, frame⟩
  · rw [step_keyEdge ht, State.keyEdge_of_not_awaitingKey hr]

/-- Settles O42: both skip on the level of the key that the low nibble names. -/
theorem keySkipsSampleTheKey : Obligations.KeySkipsSampleTheKey := by
  intro x s
  have level := Bool.eq_iff_iff.mp (s.isKeyDown_lowNibble (s.getV x))
  exact ⟨s.inputs.levels, fun _ => Inputs.levels_of_fixed, Inputs.levels_of_free,
    exec_skips_if rfl level, exec_skips_unless rfl level⟩

/-- Settles O43: a plain write of DT, and the writes of the two timers. -/
theorem timerRegisterInstructions : Obligations.TimerRegisterInstructions := fun _ s =>
  ⟨exec_wroteV rfl rfl,
    ⟨_, rfl, rfl, rfl, (s.frame_setDt _).trans (State.frame_setPc _ _)⟩,
    ⟨_, rfl, rfl, rfl, (s.frame_setSt _).trans (State.frame_setPc _ _)⟩⟩
end

/-! Control flow (44_flow_control.md): the three ends of an instruction step, the push and the pop of the
call stack, and the jumps and skips, which write pc alone. -/

section
namespace Sys2Proof.Machine

/-! ### The instruction step, case by case (R150) -/

section
variable {s : State}

theorem State.pcInWindow_eq_false_iff :
    s.pcInWindow = false ↔ s.pc.toNat < 0x200 ∨ 0xFFE < s.pc.toNat := by
  rw [← Bool.not_eq_true, State.pcInWindow_iff]; omega

theorem State.instrStep_of_outside (hw : s.pcInWindow = false) :
    s.instrStep = .next (s.raiseHalt .addressEscape 0) := by
  simp [State.instrStep, hw]

theorem State.instrStep_of_error (hw : s.pcInWindow = true) {e : DecodeError}
    (hd : decodeWord s.fetchWord = .error e) :
    s.instrStep = .next (s.raiseHalt .decodeFailure s.fetchWord) := by
  simp [State.instrStep, hw, hd]

theorem State.instrStep_of_ok (hw : s.pcInWindow = true) {i : Instr}
    (hd : decodeWord s.fetchWord = .ok i) : s.instrStep = exec i s := by
  simp [State.instrStep, hw, hd]

/-- An interpreter's turn outside the fetch window halts, whatever the memory holds (D4). -/
theorem step_of_outside (ht : s.turn = .instr) (hr : s.run = .running) (hw : s.pcInWindow = false) :
    step s = .next (s.begin.raiseHalt .addressEscape 0).moveOn := by
  rw [step_running ht hr, State.instrStep_of_outside (s := s.begin) hw, endTurn]

end

/-! ### Push and pop (R152, R154) -/

section
variable {s : State}

theorem exec_call_of_lt (nnn : Addr) (hs : s.sp.val < 16) :
    exec (.call nnn) s = .next ((s.push (s.pc + 2) hs).setPc (zextAddr nnn)) :=
  dif_pos hs

theorem exec_call_of_full (nnn : Addr) (hs : s.sp.val = 16) :
    exec (.call nnn) s = .next (s.raiseHalt .stackOverflow (encode (.call nnn))) :=
  dif_neg hs.not_lt

theorem exec_ret_of_pos (hs : 0 < s.sp.val) : exec .ret s = .next (s.drop.setPc (s.top hs)) :=
  dif_pos hs

theorem exec_ret_of_empty (hs : s.sp.val = 0) :
    exec .ret s = .next (s.raiseHalt .stackUnderflow (encode .ret)) :=
  dif_neg hs.not_gt

theorem State.top_eq_get {k : Nat} (hk : k < 16) (hs : s.sp.val = k + 1) (hpos : 0 < s.sp.val) :
    s.top hpos = s.stack[k] := by
  simp only [State.top, hs, Nat.add_sub_cancel]

/-- The word of a `CALL` (30_encoding.md R75). -/
theorem encode_call_toNat (nnn : Addr) : (encode (.call nnn)).toNat = 0x2000 + nnn.toNat :=
  formatNNN_toNat 0x2 nnn

end

/-! ### Jump target and comparison in numbers (R155 to R159) -/

/-- A 12-bit and an 8-bit number add up without a wrap (D30). -/
theorem zextAddr_add_zextByte_toNat (nnn : Addr) (b : Byte) :
    (zextAddr nnn + zextByte b).toNat = nnn.toNat + b.toNat := by
  rw [BitVec.toNat_add, zextAddr_toNat, zextByte_toNat]; omega

theorem byte_beq_iff_toNat {a b : Byte} : (a == b) = true ↔ a.toNat = b.toNat :=
  beq_iff_eq.trans BitVec.toNat_inj.symm

end Sys2Proof.Machine

open Sys2Proof Sys2Proof.Machine

/-- Settles O6: the three cases of the instruction step that the interpreter's turn takes from `begin`. -/
theorem stepRunsDecodedInstruction : Obligations.StepRunsDecodedInstruction := by
  intro s ht hr op u
  refine ⟨fun hout => ?_, fun hin => ?_⟩
  · exact step_of_outside ht hr (State.pcInWindow_eq_false_iff.mpr hout)
  · have hw : u.pcInWindow = true := (State.pcInWindow_iff u).mpr hin
    have fetch : u.fetchWord = op := State.fetchWord_eq hw
    rw [step_running ht hr]
    refine ⟨fun e hd => ?_, fun i hd => ?_⟩
    · rw [State.instrStep_of_error hw (fetch ▸ hd), fetch]; rfl
    · rw [State.instrStep_of_ok hw (fetch ▸ hd)]

/-- Settles O44: `SYS` writes pc alone. -/
theorem sysIsNoOperation : Obligations.SysIsNoOperation := fun _ s =>
  ⟨_, rfl, rfl, s.frame_setPc _⟩

/-- Settles O45: the jump writes pc alone, so the next turn is still the interpreter's, now outside the
window. -/
theorem jumpIsCheckedByTheNextFetch : Obligations.JumpIsCheckedByTheNextFetch := by
  intro nnn s
  refine ⟨_, rfl, zextAddr_toNat nnn, s.frame_setPc _, fun hr ht hout => ?_⟩
  have outside : (s.setPc (zextAddr nnn)).pcInWindow = false := by
    rw [State.pcInWindow_eq_false_iff, State.setPc_pc, zextAddr_toNat]; omega
  have turn : (s.setPc (zextAddr nnn)).turn = .instr := (State.turn_congr rfl rfl).trans ht
  refine ⟨_, step_of_outside turn hr outside, rfl, rfl, zextAddr_toNat nnn, rfl, ?_⟩
  exact (((State.frame_begin _).trans (State.frame_raiseHalt _ _ _)).trans
    (State.frame_setInputs _ _)).mono (by simp)

/-- Settles O46: the push below depth 16, and the halt at it. -/
theorem callPushesReturnAddress : Obligations.CallPushesReturnAddress := by
  intro nnn s
  refine ⟨fun hs => ?_, fun hs => ?_⟩
  · refine ⟨_, exec_call_of_lt nnn hs, rfl, fun k hk => ?_, zextAddr_toNat nnn,
      (s.frame_push _ hs).trans (State.frame_setPc _ _)⟩
    rw [State.setPc_stack, State.push_stack_get]
    exact if_congr eq_comm rfl rfl
  · exact ⟨_, exec_call_of_full nnn hs, rfl, rfl, rfl, encode_call_toNat nnn,
      s.frame_raiseHalt _ _⟩

/-- Settles O47: the pop above depth 0, and the halt at it. -/
theorem returnPopsReturnAddress : Obligations.ReturnPopsReturnAddress := by
  intro s
  refine ⟨fun k hk hs => ?_, fun hs => ?_⟩
  · have hpos : 0 < s.sp.val := hs ▸ k.succ_pos
    refine ⟨_, exec_ret_of_pos hpos, ?_, rfl, State.top_eq_get hk hs hpos,
      s.frame_drop.trans (State.frame_setPc _ _)⟩
    rw [State.setPc_sp, State.drop_sp_val, hs, Nat.add_sub_cancel]
  · exact ⟨_, exec_ret_of_empty hs, rfl, rfl, s.frame_raiseHalt _ _⟩

/-- Settles O48: the return pops the entry that the call pushed, at the depth of the call. -/
theorem returnUndoesCall : Obligations.ReturnUndoesCall := by
  intro nnn s t t' hs hcall hsp hstack
  obtain ⟨_, hcall', depth, pushed, -⟩ := (callPushesReturnAddress nnn s).1 hs
  obtain rfl := Host.Outcome.next.inj (hcall.symm.trans hcall')
  obtain ⟨u, hret, depth', -, popped, -⟩ :=
    (returnPopsReturnAddress t').1 s.sp.val hs (by rw [hsp, depth])
  refine ⟨u, hret, ?_, Fin.ext depth'⟩
  calc u.pc
    _ = t.stack[s.sp.val] := by rw [popped, hstack]
    _ = s.pc + 2 := (pushed s.sp.val hs).trans (if_pos rfl)

/-- Settles O49: `JP V0` writes pc alone, with a sum that fits in 16 bits. -/
theorem jumpV0AddsV0 : Obligations.JumpV0AddsV0 := fun nnn s =>
  ⟨_, rfl, zextAddr_add_zextByte_toNat nnn (s.getV 0), s.frame_setPc _⟩

/-- Settles O50: two skips on an equality and two unless there is one. -/
theorem conditionalSkips : Obligations.ConditionalSkips := fun _ _ _ _ =>
  ⟨exec_skips_if rfl byte_beq_iff_toNat, exec_skips_unless rfl byte_beq_iff_toNat,
    exec_skips_if rfl byte_beq_iff_toNat, exec_skips_unless rfl byte_beq_iff_toNat⟩
end

/-! The fatal conditions (60_exceptions.md R170 to R177): when an instruction step raises each of the four
causes, and that it then raises the halt from the state it began in. -/

section
namespace Sys2Proof.Machine

/-- The condition under which an instruction step raises each cause, in the order of R175 (D25, D26). -/
def State.Raises (s : State) : HaltCause → Prop
  | .addressEscape => s.pcInWindow = false
  | .decodeFailure => s.pcInWindow = true ∧ ∃ e, decodeWord s.fetchWord = .error e
  | .stackOverflow => s.sp.val = 16 ∧ s.pcInWindow = true ∧ ∃ nnn, decodeWord s.fetchWord = .ok (.call nnn)
  | .stackUnderflow => s.sp.val = 0 ∧ s.pcInWindow = true ∧ decodeWord s.fetchWord = .ok .ret

/-- The opcode recorded for each cause: outside the window nothing is fetched (R170). -/
def State.opcodeOf (s : State) (cause : HaltCause) : Word :=
  if cause = .addressEscape then 0 else s.fetchWord

section
variable {s t : State} {i : Instr} {cause : HaltCause}

theorem run_mem_partsOf (h : .run ∈ partsOf i) : i = .ret ∨ (∃ nnn, i = .call nnn) ∨ ∃ x, i = .ldVxK x := by
  cases i <;> simp_all [partsOf]

/-- An instruction leaves the run state alone, suspends in `LD Vx, K`, or halts in `CALL` or `RET`. -/
theorem exec_run_cases (h : exec i s = .next t) :
    t.run = s.run ∨
    (∃ x, i = .ldVxK x ∧ t.run = .awaitingKey x) ∨
    (∃ nnn, i = .call nnn ∧ s.sp.val = 16 ∧ t.run = .halted .stackOverflow) ∨
    (i = .ret ∧ s.sp.val = 0 ∧ t.run = .halted .stackUnderflow) := by
  by_cases hrun : .run ∈ partsOf i
  · obtain rfl | ⟨nnn, rfl⟩ | ⟨x, rfl⟩ := run_mem_partsOf hrun
    · obtain ⟨-, rfl⟩ | ⟨hs, rfl⟩ := execRet_cases h
      · exact .inl rfl
      · exact .inr (.inr (.inr ⟨rfl, hs, rfl⟩))
    · obtain ⟨-, rfl⟩ | ⟨hs, rfl⟩ := execCall_cases h
      · exact .inl rfl
      · exact .inr (.inr (.inl ⟨nnn, rfl, hs, rfl⟩))
    · injection h with h; subst h
      exact .inr (.inl ⟨x, rfl, rfl⟩)
  · exact .inl (exec_frame h .run hrun)

/-- No instruction ends in a fault or a refusal. -/
theorem exec_answers (i : Instr) (s : State) : ∃ t, exec i s = .next t := by
  cases i
  case call nnn =>
    by_cases hs : s.sp.val < 16
    · exact ⟨_, exec_call_of_lt nnn hs⟩
    · exact ⟨_, exec_call_of_full nnn (by have := s.sp.isLt; omega)⟩
  case ret =>
    by_cases hs : 0 < s.sp.val
    · exact ⟨_, exec_ret_of_pos hs⟩
    · exact ⟨_, exec_ret_of_empty (by omega)⟩
  all_goals exact ⟨_, rfl⟩

theorem State.instrStep_answers (s : State) : ∃ t, s.instrStep = .next t := by
  cases hw : s.pcInWindow with
  | false => exact ⟨_, State.instrStep_of_outside hw⟩
  | true =>
    cases hd : decodeWord s.fetchWord with
    | error e => exact ⟨_, State.instrStep_of_error hw hd⟩
    | ok i => rw [State.instrStep_of_ok hw hd]; exact exec_answers i s

/-- Where a cause is due the step raises it, with the word it fetched. -/
theorem State.instrStep_of_raises (h : s.Raises cause) :
    s.instrStep = .next (s.raiseHalt cause (s.opcodeOf cause)) := by
  cases cause with
  | addressEscape => exact State.instrStep_of_outside h
  | decodeFailure =>
    obtain ⟨hw, e, hd⟩ := h
    exact State.instrStep_of_error hw hd
  | stackOverflow =>
    obtain ⟨hs, hw, nnn, hd⟩ := h
    have op : encode (.call nnn) = s.fetchWord := (encodeAfterDecode _ _ hd).2
    rw [State.instrStep_of_ok hw hd, exec_call_of_full nnn hs, op]; rfl
  | stackUnderflow =>
    obtain ⟨hs, hw, hd⟩ := h
    have op : encode .ret = s.fetchWord := (encodeAfterDecode _ _ hd).2
    rw [State.instrStep_of_ok hw hd, exec_ret_of_empty hs, op]; rfl

/-- A running machine halts with a cause only where the cause is due. -/
theorem State.raises_of_instrStep (hr : s.run = .running) (h : s.instrStep = .next t)
    (ht : t.run = .halted cause) : s.Raises cause := by
  obtain ⟨hw, rfl⟩ | ⟨hw, hd, rfl⟩ | ⟨i, hw, hd, h⟩ := State.instrStep_cases h
  · cases ht; exact hw
  · cases ht; exact ⟨hw, hd⟩
  · obtain same | ⟨x, -, waits⟩ | ⟨nnn, rfl, hs, halts⟩ | ⟨rfl, hs, halts⟩ := exec_run_cases h
    · simp [same, hr] at ht
    · simp [waits] at ht
    · cases halts.symm.trans ht; exact ⟨hs, hw, nnn, hd⟩
    · cases halts.symm.trans ht; exact ⟨hs, hw, hd⟩

theorem State.begin_raises : s.begin.Raises cause ↔ s.Raises cause := by
  cases cause <;> exact Iff.rfl

/-- A turn in which a cause is due raises it and does nothing else (R176, D24). -/
theorem step_of_raises (ht : s.turn = .instr) (hr : s.run = .running) (h : s.Raises cause) :
    step s = .next (s.begin.raiseHalt cause (s.opcodeOf cause)).moveOn := by
  rw [step_running ht hr, State.instrStep_of_raises (State.begin_raises.mpr h)]; rfl

/-- A turn in `Running` halts with a cause exactly where it is due. -/
theorem step_halts_iff (ht : s.turn = .instr) (hr : s.run = .running) (h : step s = .next t) :
    t.run = .halted cause ↔ s.Raises cause := by
  refine ⟨fun halts => ?_, fun due => ?_⟩
  · obtain ⟨u, hu⟩ := s.begin.instrStep_answers
    rw [step_running ht hr, hu] at h
    obtain rfl : u.moveOn = t := Host.Outcome.next.inj h
    exact State.begin_raises.mp (State.raises_of_instrStep hr hu halts)
  · rw [← Host.Outcome.next.inj ((step_of_raises ht hr due).symm.trans h)]; rfl

theorem State.runs_iff (ht : s.turn = .instr) (hr : s.run = .running) :
    s.runs i ↔ s.pcInWindow = true ∧ decodeWord s.fetchWord = .ok i := by
  simp [State.runs, ht, hr]

end
end Sys2Proof.Machine

open Sys2Proof Sys2Proof.Machine

/-- Settles O7: every instruction answers, and each cause is raised exactly where it is due. -/
theorem fatalConditionsInOrder : Obligations.FatalConditionsInOrder := by
  intro s ht hr
  obtain ⟨u, hu⟩ := s.begin.instrStep_answers
  have h : step s = .next u.moveOn := by rw [step_running ht hr, hu]; rfl
  have halts (cause : HaltCause) : u.moveOn.run = .halted cause ↔ s.Raises cause :=
    step_halts_iff ht hr h
  refine ⟨_, h, halts .addressEscape, halts .decodeFailure, ?_, ?_⟩
  · simp only [State.runs_iff ht hr, exists_and_left]
    exact halts .stackOverflow
  · rw [State.runs_iff ht hr]
    exact halts .stackUnderflow

/-- Settles O8: the cause that was raised was due, and there the step only raises it. -/
theorem fatalConditionsArePrecise : Obligations.FatalConditionsArePrecise := by
  intro s t cause ht hr h halts
  have due : s.Raises cause := (step_halts_iff ht hr h).mp halts
  exact Host.Outcome.next.inj (h.symm.trans (step_of_raises ht hr due))
end

/-! `Halted`, ticks and `AwaitingKey` (60_exceptions.md R177 to R188): what a tick does to the timers, what
each turn does in the wait, and runs of several turns, up to a tick that is bound to come. -/

section
namespace Sys2Proof.Machine

/-! ### The tick (R180) -/

theorem countDown_toNat (b : Byte) : (countDown b).toNat = b.toNat - 1 := by
  unfold countDown
  split
  · rw [BitVec.toNat_sub, show (1 : Byte).toNat = 1 from rfl]; omega
  · omega

section
variable {s s' t : State} {x k : Nibble} {cause : HaltCause}

/-- A machine is safe in the two run states in which a tick is enabled. -/
theorem State.safe_iff : s.safe = true ↔ s.run = .running ∨ ∃ x, s.run = .awaitingKey x := by
  unfold State.safe
  cases s.run <;> simp

theorem State.safe_eq_false_iff : s.safe = false ↔ ∃ cause, s.run = .halted cause := by
  unfold State.safe
  cases s.run <;> simp

theorem State.tick_of_safe (hs : s.safe = true) :
    s.tick = (s.setDt (countDown s.dt)).setSt (countDown s.st) := by
  unfold State.tick
  split
  · rfl
  · rfl
  · rename_i hr; simp [State.safe, hr] at hs

theorem State.tick_of_halted (hr : s.run = .halted cause) : s.tick = s := by
  simp only [State.tick, hr]

@[simp] theorem State.tick_run (s : State) : s.tick.run = s.run := s.frame_tick .run (by simp)

/-- A tick turn is the tick with the inputs moved on. -/
theorem step_tick (ht : s.turn = .tick) : step s = .next s.tick.moveOn := by
  simp only [step, State.takeTurn, ht, endTurn]

/-! ### The wait (R143, R188) -/

/-- The only way into the wait is `LD Vx, K`. -/
theorem State.ldVxK_of_instrStep (hr : s.run = .running) (h : s.instrStep = .next t)
    (ht : t.run = .awaitingKey x) : s.pcInWindow = true ∧ decodeWord s.fetchWord = .ok (.ldVxK x) := by
  obtain ⟨-, rfl⟩ | ⟨-, -, rfl⟩ | ⟨i, hw, hd, h⟩ := State.instrStep_cases h
  · simp at ht
  · simp at ht
  · obtain same | ⟨y, rfl, waits⟩ | ⟨-, -, -, halts⟩ | ⟨-, -, halts⟩ := exec_run_cases h
    · simp [same, hr] at ht
    · cases waits.symm.trans ht; exact ⟨hw, hd⟩
    · simp [halts] at ht
    · simp [halts] at ht

/-- What a turn other than a key-down edge and reset does in the wait. It cannot be a load, because a machine
that waits has started. -/
theorem step_cases_of_awaitingKey (inv : s.Inv) (hr : s.run = .awaitingKey x) (h : step s = .next t)
    (hedge : ∀ k, s.turn ≠ .keyEdge k) (hreset : s.turn ≠ .reset) :
    (s.turn = .tick ∧ t = s.tick.moveOn) ∨ (s.turn ≠ .tick ∧ t = s.moveOn) := by
  obtain ⟨-, running, -⟩ | ⟨ht, -, e⟩ | ⟨ht, e⟩ | ⟨k, ht, -⟩ | ⟨ht, -⟩ | ⟨rom, -, hs, -⟩ := step_cases h
  · simp [hr] at running
  · exact .inr ⟨by simp [ht], e⟩
  · exact .inl ⟨ht, e⟩
  · exact absurd ht (hedge k)
  · exact absurd ht hreset
  · simp [inv.running_of_not_started hs] at hr

/-- A reset turn is the reset state with the inputs moved on. -/
theorem step_reset (ht : s.turn = .reset) : step s = .next s.hostReset.moveOn := by
  simp only [step, State.takeTurn, ht, endTurn]

/-- A key-down edge and reset end the wait. -/
theorem running_of_edge_or_reset (hr : s.run = .awaitingKey x) (h : step s = .next t)
    (ht : (∃ k, s.turn = .keyEdge k) ∨ s.turn = .reset) : t.run = .running := by
  obtain ⟨k, ht⟩ | ht := ht
  · rw [step_keyEdge ht, State.keyEdge_of_awaitingKey hr] at h
    rw [← Host.Outcome.next.inj h]; rfl
  · obtain rfl := Host.Outcome.next.inj (h.symm.trans (step_reset ht))
    rfl

/-- Two machines that wait, equal but for their inputs, are equal again after a tick and an edge in either
order: the tick writes the timers, the edge writes V, pc and the run state (D26). -/
theorem State.frame_tick_keyEdge (hr : s.run = .awaitingKey x) (h : Frame [.inputs] s s') :
    Frame [.inputs] (s.tick.moveOn.keyEdge k).moveOn (s'.keyEdge k).moveOn.tick.moveOn := by
  have hr' : s'.run = .awaitingKey x := (h .run (by simp)).trans hr
  have waits : s.tick.moveOn.run = .awaitingKey x := s.tick_run.trans hr
  have safe : s.safe = true := State.safe_iff.mpr (.inr ⟨x, hr⟩)
  have safe' : (s'.keyEdge k).moveOn.safe = true := by rw [State.keyEdge_of_awaitingKey hr']; rfl
  rw [State.keyEdge_of_awaitingKey waits, State.tick_of_safe safe, State.tick_of_safe safe',
    State.keyEdge_of_awaitingKey hr']
  intro p hp
  have same := h p hp
  cases p
  case v =>
    intro r
    show (s'.setV x (zextNibble k)).getV r = (s.setV x (zextNibble k)).getV r
    rw [State.getV_setV, State.getV_setV, same r]
  case pc => exact congrArg (· + 2) same
  case dt | st => exact congrArg countDown same
  case run => rfl
  case inputs => simp at hp
  all_goals exact same

/-! ### Runs of several turns -/

theorem run_succ_of_step (h : step s = .next t) (n : Nat) :
    Host.Core.run core (n + 1) s = Host.Core.run core n t := by
  simp only [Host.Core.run, core, h]

/-- What writes neither the inputs nor `started` leaves the next turn to the same agent. -/
theorem Frame.turn_moveOn {l : List Part} (h : Frame l s t) (hi : .inputs ∉ l) (hs : .started ∉ l) :
    t.moveOn.turn = s.moveOn.turn :=
  State.turn_congr (congrArg Inputs.moveOn (h .inputs hi)) (h .started hs)

/-- The interpreter's turn and every event have an answer, but a turn in `Halted` and a load that the
interface does not permit. -/
theorem step_answers (hs : s.safe = true) (hp : s.permits s.turn = true) : ∃ t, step s = .next t := by
  cases ht : s.turn with
  | instr =>
    obtain hr | ⟨x, hr⟩ := State.safe_iff.mp hs
    · obtain ⟨u, hu⟩ := s.begin.instrStep_answers
      exact ⟨u.moveOn, by rw [step_running ht hr, hu]; rfl⟩
    · exact ⟨s.moveOn, by simp only [step, State.takeTurn, ht, State.interpTurn, hr, endTurn]⟩
  | tick => exact ⟨_, step_tick ht⟩
  | keyEdge k => exact ⟨_, step_keyEdge ht⟩
  | reset => exact ⟨_, step_reset ht⟩
  | load rom =>
    obtain ⟨hstart, hlen⟩ : s.started = false ∧ rom.length ≤ Config.romMax := by
      simpa [ht, State.permits] using hp
    refine ⟨(s.placeRom rom).moveOn, ?_⟩
    simp [step, State.takeTurn, ht, State.hostLoad, hstart, Nat.not_lt.mpr hlen, endTurn]

/-- The run fixes no load of a ROM. -/
def Inputs.NoLoad (n : Inputs) : Prop := ∀ g ∈ n.given, ∀ rom, g.turn ≠ some (.load rom)

theorem Inputs.NoLoad.now_turn_ne {n : Inputs} (h : n.NoLoad) (rom : List Byte) :
    n.now.turn ≠ some (.load rom) := by
  unfold Inputs.now
  by_cases hc : n.count < n.given.length
  · rw [List.getD_eq_getElem _ _ hc]
    exact h _ (List.getElem_mem hc) rom
  · rw [List.getD_eq_default _ _ (Nat.le_of_not_lt hc)]
    simp [Given.free]

/-- Where the run fixes no load, the turn is one the interface permits. -/
theorem State.permits_turn_of_noLoad (h : s.inputs.NoLoad) : s.permits s.turn = true := by
  cases hn : s.inputs.now.turn with
  | none => exact State.permits_turn hn
  | some a =>
    rw [State.turn_of_given hn]
    cases a with
    | load rom => exact absurd hn (h.now_turn_ne rom)
    | instr | tick | keyEdge | reset => rfl

/-- Where the run fixes no load it goes on for any number of turns or halts. -/
theorem run_goes_on_or_halts (d : Nat) (h : s.inputs.NoLoad) :
    (∃ (n : Nat) (t : State), Host.Core.run core n s = .next t ∧ t.safe = false) ∨
    ∃ t : State, Host.Core.run core d s = .next t ∧
      t.inputs.given = s.inputs.given ∧ t.inputs.count = s.inputs.count + d := by
  induction d generalizing s with
  | zero => exact .inr ⟨s, rfl, rfl, rfl⟩
  | succ d ih =>
    cases hs : s.safe with
    | false => exact .inl ⟨0, s, rfl, hs⟩
    | true =>
      obtain ⟨u, hu⟩ := step_answers hs (State.permits_turn_of_noLoad h)
      have inputs : u.inputs = s.inputs.moveOn := step_inputs hu
      obtain ⟨n, t, hrun, halted⟩ | ⟨t, hrun, given, count⟩ := ih (s := u) (by rw [inputs]; exact h)
      · exact .inl ⟨n + 1, t, (run_succ_of_step hu n).trans hrun, halted⟩
      · rw [inputs, Inputs.given_moveOn] at given
        rw [inputs, Inputs.count_moveOn] at count
        exact .inr ⟨t, (run_succ_of_step hu d).trans hrun, given, by omega⟩

/-- Past the turns that a run fixes, a tick of the free schedule is the turn. -/
theorem State.turn_of_freeTurn_tick (hlen : s.inputs.given.length ≤ s.inputs.count)
    (h : Config.freeTurn s.inputs.count = .tick) : s.turn = .tick := by
  have free : s.inputs.now = Given.free := List.getD_eq_default _ _ hlen
  rw [State.turn_of_free (by rw [free]; rfl), h]; rfl

end
end Sys2Proof.Machine

open Sys2Proof Sys2Proof.Machine

/-- Settles O9: a tick and an edge do nothing there, and a machine that has halted has started, so that no
load has a meaning. -/
theorem haltedIsFrozen : Obligations.HaltedIsFrozen := by
  intro s t cause inv hr h
  refine ⟨fun hreset => ?_, fun ht => ?_⟩
  · obtain ⟨-, running, -⟩ | ⟨-, ⟨x, waits⟩, -⟩ | ⟨-, rfl⟩ | ⟨k, -, rfl⟩ | ⟨ht, -⟩ | ⟨rom, -, hs, -⟩ :=
      step_cases h
    · simp [hr] at running
    · simp [hr] at waits
    · rw [State.tick_of_halted hr]
    · rw [State.keyEdge_of_not_awaitingKey (by simp [hr])]
    · exact absurd ht hreset
    · simp [inv.running_of_not_started hs] at hr
  · rw [step_reset ht] at h
    rw [← Host.Outcome.next.inj h]; rfl

/-- Settles O10. -/
theorem haltedTurnReportsTheRecord : Obligations.HaltedTurnReportsTheRecord := by
  intro s cause ht hr
  simp only [step, State.takeTurn, ht, State.interpTurn, hr, endTurn]

/-- Settles O11: the tick counts each timer down where it is enabled. -/
theorem tickStep : Obligations.TickStep := by
  intro s ht hr
  have frame : Frame [.dt, .st, .inputs] s s.tick.moveOn := s.frame_tick.trans (State.frame_setInputs _ _)
  have tick := step_tick ht
  rw [State.tick_of_safe (State.safe_iff.mpr hr)] at frame tick
  exact ⟨_, tick, countDown_toNat s.dt, countDown_toNat s.st, rfl, frame⟩

/-- Settles O12, by induction on the number of ticks. -/
theorem ticksCountDownToZero : Obligations.TicksCountDownToZero := by
  intro n
  induction n with
  | zero => exact fun s _ _ => ⟨s, rfl, rfl, rfl, .refl _ s⟩
  | succ n ih =>
    intro s fixed hr
    have ht : s.turn = .tick := State.turn_of_given (fixed 0 n.succ_pos)
    obtain ⟨u, hu, dt, st, inputs, frame⟩ := tickStep s ht hr
    have fixed' : ∀ k, k < n → (u.inputs.given.getD (u.inputs.count + k) Given.free).turn = some .tick := by
      intro k hk
      rw [inputs, Inputs.given_moveOn, Inputs.count_moveOn, Nat.add_assoc, Nat.add_comm 1 k]
      exact fixed (k + 1) (Nat.succ_lt_succ hk)
    have hr' : u.run = .running ∨ ∃ x, u.run = .awaitingKey x := by
      rwa [show u.run = s.run from frame .run (by simp)]
    obtain ⟨t, hrun, dt', st', frame'⟩ := ih u fixed' hr'
    exact ⟨t, (run_succ_of_step hu n).trans hrun, by omega, by omega, (frame.trans frame').mono (by simp)⟩

/-- Settles O13: the run goes on to the first tick of the free schedule behind the turns it fixes, unless
it halts before. -/
theorem ticksKeepComing : Obligations.TicksKeepComing := by
  intro s h
  obtain ⟨m, hm, free⟩ := Config.freeTurn_tick_after (s.inputs.count + s.inputs.given.length)
  obtain ⟨n, t, hrun, halted⟩ | ⟨t, hrun, given, count⟩ := run_goes_on_or_halts (m - s.inputs.count) h
  · exact ⟨n, t, hrun, .inl (State.safe_eq_false_iff.mp halted)⟩
  · refine ⟨_, t, hrun, ?_⟩
    cases hs : t.safe with
    | false => exact .inl (State.safe_eq_false_iff.mp hs)
    | true =>
      have count : t.inputs.count = m := by omega
      have ht : t.turn = .tick :=
        State.turn_of_freeTurn_tick (by rw [given]; omega) (by rw [count, free])
      obtain ⟨u, hu, dt, st, -⟩ := tickStep t ht (State.safe_iff.mp hs)
      exact .inr ⟨ht, u, hu, dt, st⟩

/-- Settles O15: the output is read off ST, which `LD ST, Vx` sets and a tick lowers by one. -/
theorem soundFollowsSoundTimer : Obligations.SoundFollowsSoundTimer := by
  have sound (s : State) : s.soundActive = true ↔ s.st.toNat ≠ 0 := by
    rw [State.soundActive, bne_iff_ne, ne_eq, ← BitVec.toNat_inj]; rfl
  refine ⟨sound, fun s t x h => ?_, fun s t ht hr h => ?_⟩
  · injection h with h; subst h
    exact sound _
  · obtain ⟨u, hu, -, st, -⟩ := tickStep s ht (.inl hr)
    obtain rfl := Host.Outcome.next.inj (hu.symm.trans h)
    rw [sound, st]; omega

/-- Settles O17: into the wait leads `LD Vx, K` alone; in it, an edge and reset end it, a tick counts the
timers, any other turn does nothing. -/
theorem waitStateEnteredAndLeft : Obligations.WaitStateEnteredAndLeft := by
  refine ⟨fun s t x hr h waits => ?_, fun s t x inv hr h =>
    ⟨running_of_edge_or_reset hr h, fun hedge hreset => ?_⟩⟩
  · have stays (hsame : t.run = s.run) : s.runs (.ldVxK x) := absurd (hsame.symm.trans waits) (hr x)
    obtain ⟨ht, hrun, u, hu, rfl⟩ | ⟨-, -, rfl⟩ | ⟨-, rfl⟩ | ⟨k, -, rfl⟩ | ⟨-, rfl⟩ | ⟨rom, -, -, -, rfl⟩ :=
      step_cases h
    · exact ⟨ht, hrun, State.ldVxK_of_instrStep (s := s.begin) hrun hu waits⟩
    · exact stays rfl
    · exact stays s.tick_run
    · exact stays (by rw [State.keyEdge_of_not_awaitingKey hr]; rfl)
    · simp [State.hostReset, State.reset] at waits
    · exact stays (s.frame_placeRom rom .run (by simp))
  · obtain ⟨ht, -⟩ | ⟨ht, rfl⟩ := step_cases_of_awaitingKey inv hr h hedge hreset
    · obtain ⟨u, hu, dt, st, -, frame⟩ := tickStep s ht (.inr ⟨x, hr⟩)
      obtain rfl := Host.Outcome.next.inj (hu.symm.trans h)
      exact ⟨(frame .run (by simp)).trans hr, frame, fun _ => ⟨dt, st⟩, absurd ht⟩
    · exact ⟨hr, (s.frame_setInputs _).mono (by simp), fun hn => absurd hn ht, fun _ => ⟨rfl, rfl⟩⟩

/-- Settles O18: both orders are runs of two turns, and they end in the same machine. -/
theorem tickAndKeyEdgeCommute : Obligations.TickAndKeyEdgeCommute := by
  intro s s' x k hr frame tick edge edge' tick'
  have edge : s.tick.moveOn.turn = .keyEdge k :=
    (s.frame_tick.turn_moveOn (by simp) (by simp)).trans edge
  have tick' : (s'.keyEdge k).moveOn.turn = .tick :=
    ((s'.frame_keyEdge k).turn_moveOn (by simp) (by simp)).trans tick'
  have run : s.tick.moveOn.run = .awaitingKey x := s.tick_run.trans hr
  refine ⟨_, _, (run_succ_of_step (step_tick tick) 1).trans (run_succ_of_step (step_keyEdge edge) 0),
    (run_succ_of_step (step_keyEdge edge') 1).trans (run_succ_of_step (step_tick tick') 0), ?_,
    State.frame_tick_keyEdge hr frame⟩
  rw [State.keyEdge_of_awaitingKey run]; rfl
end

/-! Reset, and the run through zero memory (70_reset_and_hazards.md R200, R201): a word of zero bytes is
`SYS 0`, so pc climbs two by two to the end of memory, where the window check halts the machine. -/

section
namespace Sys2Proof.Machine

/-- A zero byte at every address from pc to the end of memory. -/
def State.ZeroFromPc (s : State) : Prop := ∀ a, s.pc.toNat ≤ a → a ≤ 0xFFF → s.memRead a = 0

/-- The run fixes turn `count` and the `n` turns after it to be the interpreter's. -/
def Inputs.InstrFor (n : Nat) (inputs : Inputs) : Prop :=
  ∀ k, k ≤ n → (inputs.given.getD (inputs.count + k) Given.free).turn = some .instr

theorem Inputs.InstrFor.moveOn {n : Nat} {inputs : Inputs} (h : inputs.InstrFor (n + 1)) :
    inputs.moveOn.InstrFor n := by
  intro k hk
  rw [Inputs.given_moveOn, Inputs.count_moveOn, Nat.add_assoc, Nat.add_comm 1 k]
  exact h (k + 1) (Nat.succ_le_succ hk)

section
variable {s : State} {i : Instr}

theorem State.turn_of_instrFor {n : Nat} (h : s.inputs.InstrFor n) : s.turn = .instr :=
  State.turn_of_given (h 0 n.zero_le)

/-- A turn that runs an instruction is that instruction, executed from `begin`. -/
theorem step_of_runs (h : s.runs i) : step s = endTurn (exec i s.begin) := by
  obtain ⟨ht, hr, hw, hd⟩ := h
  rw [step_running ht hr, State.instrStep_of_ok (s := s.begin) hw hd]

/-- The word at pc, in the window and in zero memory, decodes as `SYS 0` (R201). -/
theorem State.decodeWord_of_zeroFromPc (hw : s.pcInWindow = true) (zero : s.ZeroFromPc) :
    decodeWord s.fetchWord = .ok (.sys 0) := by
  have ⟨_, hpc⟩ := s.pcInWindow_iff.mp hw
  have high : s.memRead s.pc.toNat = 0 := zero _ (by omega) (by omega)
  have low : s.memRead (s.pc.toNat + 1) = 0 := zero _ (by omega) (by omega)
  rw [State.fetchWord_eq hw, high, low]
  decide

/-- A turn in zero memory moves pc on by 2 and does nothing else to the machine (R151, R201). -/
theorem step_of_zeroFromPc (ht : s.turn = .instr) (hr : s.run = .running) (hw : s.pcInWindow = true)
    (zero : s.ZeroFromPc) :
    ∃ t, step s = .next t ∧ t.pc = s.pc + 2 ∧ t.inputs = s.inputs.moveOn ∧
      Frame [.pc, .inputs, .started] s t := by
  have runs : s.runs (.sys 0) := ⟨ht, hr, hw, State.decodeWord_of_zeroFromPc hw zero⟩
  have frame : Frame [.pc, .inputs, .started] s s.begin.advance.moveOn :=
    ((s.frame_begin.trans (State.frame_setPc _ _)).trans (State.frame_setInputs _ _)).mono (by simp)
  exact ⟨_, step_of_runs runs, rfl, rfl, frame⟩

/-- What leaves memory alone and does not lower pc leaves only zero bytes ahead of pc. -/
theorem State.ZeroFromPc.of_frame {t : State} {l : List Part} (zero : s.ZeroFromPc) (frame : Frame l s t)
    (hmem : .mem ∉ l) (hpc : s.pc.toNat ≤ t.pc.toNat) : t.ZeroFromPc :=
  fun a ha hend => (frame .mem hmem a).trans (zero a (hpc.trans ha) hend)

/-- Zero memory runs to its end, and the interpreter still has the turn there (R201). -/
theorem run_of_zeroFromPc (n : Nat) (hr : s.run = .running) (fixed : s.inputs.InstrFor n)
    (hpc : 0x200 ≤ s.pc.toNat) (hend : s.pc.toNat + 2 * n = 0x1000) (zero : s.ZeroFromPc) :
    ∃ t, Host.Core.run core n s = .next t ∧ t.pc = 0x1000 ∧ t.turn = .instr ∧
      Frame [.pc, .inputs, .started] s t := by
  induction n generalizing s with
  | zero => exact ⟨s, rfl, BitVec.eq_of_toNat_eq hend, State.turn_of_instrFor fixed, .refl _ s⟩
  | succ n ih =>
    have hw : s.pcInWindow = true := s.pcInWindow_iff.mpr ⟨hpc, by omega⟩
    obtain ⟨u, hu, upc, inputs, frame⟩ := step_of_zeroFromPc (State.turn_of_instrFor fixed) hr hw zero
    have next : u.pc.toNat = s.pc.toNat + 2 := by rw [upc]; bv_omega
    obtain ⟨t, hrun, tpc, turn, frame'⟩ := ih (s := u) ((frame .run (by simp)).trans hr)
      (inputs ▸ fixed.moveOn) (by omega) (by omega) (zero.of_frame frame (by simp) (by omega))
    exact ⟨t, (run_succ_of_step hu n).trans hrun, tpc, turn, (frame.trans frame').mono (by simp)⟩

/-- A turn that halts changes the run state and the halt record, and the fields of the model itself (R176). -/
theorem State.frame_begin_raiseHalt_moveOn (s : State) (cause : HaltCause) (op : Word) :
    Frame [.run, .halt, .inputs, .started] s (s.begin.raiseHalt cause op).moveOn :=
  ((s.frame_begin.trans (State.frame_raiseHalt _ _ _)).trans (State.frame_setInputs _ _)).mono (by simp)

end
end Sys2Proof.Machine

open Sys2Proof Sys2Proof.Machine

/-- Settles O22: the run to the end of memory, and the window check there. -/
theorem zeroMemoryRunsOffTheEnd : Obligations.ZeroMemoryRunsOffTheEnd := by
  intro n s hr fixed hpc hend zero
  obtain ⟨t, hrun, tpc, turn, frame⟩ := run_of_zeroFromPc n hr fixed hpc hend zero
  have running : t.run = .running := (frame .run (by simp)).trans hr
  have outside : t.pcInWindow = false := State.pcInWindow_eq_false_iff.mpr (.inr (by rw [tpc]; decide))
  have record : (t.begin.raiseHalt .addressEscape 0).moveOn.halt = ⟨2, 0x1000, 0⟩ :=
    congrArg (HaltRecord.mk 2 · 0) tpc
  exact ⟨t, _, hrun, tpc, frame, step_of_outside turn running outside, rfl, record,
    t.frame_begin_raiseHalt_moveOn _ _⟩

/-- Settles O20: reset keeps of the state the inputs alone, and they move on. -/
theorem resetFromAnyState : Obligations.ResetFromAnyState := fun _ => step_reset
end
